-- ==== Sys2Proof/Word.lean ====
section
/-!
DEFINITION. The widths of the engine's values (spec/00_scope.md R8, R9, R11, R12): every value is an unsigned word of a
stated width, bit 0 the least significant.
-/

namespace Sys2Proof

/-- One message or seed byte; one byte lane of `DIN` (R11, R46). -/
abbrev Byte := BitVec 8

/-- A 64-bit word: a lane, `pending`, `total_bytes`, the result (R8 `LANE_BITS`, `COUNT_BITS`, `OUT_BITS`). -/
abbrev Word := BitVec 64

/-- The command word `CMD[15:0]` (R9 `CMD_BITS`, R45). -/
abbrev CmdWord := BitVec 16

/-- The data operand `DIN[127:0]`, 16 byte lanes (R9 `DIN_BITS`, R46). -/
abbrev Din := BitVec 128

/-- The `STATUS` port (R9 `STATUS_BITS`, R43). -/
abbrev StatusWord := BitVec 32

end Sys2Proof
end

