-- ==== Sys2Proof/Config.lean ====
section
/-!
DEFINITION. The parameters of the hardware interface that are numbers of their own (spec/00_scope.md R8 to R10).
No value of this machine is free: the spec leaves no result of a command open (R170), so no constant here is opaque.
-/

namespace Sys2Proof

/-- `APPEND_MAX` (R9, D5): the most message bytes one APPEND carries. -/
abbrev Config.appendMax : Nat := 8

/-- `SEED_BYTES` (R8). -/
abbrev Config.seedBytes : Nat := 16

/-- `WORD_BYTES` (R8). -/
abbrev Config.wordBytes : Nat := 8

/-- `N_ENGINES` of the machine that `State.reset` describes.
DESIGN CHOICE (log entry 5, unsafe for a claim about `State.reset` alone): the spec leaves the number open (R10, D20), with at least 1.
`State.resetOf` takes it as an argument and no statement rests on this number. -/
def Config.nEngines : Nat := 1

end Sys2Proof
end

