-- ==== Sys2Proof/Syntax.lean ====
section
/-!
DEFINITION. A command as the host writes it, and the three commands of spec/opcode_table.json with their operands taken
out of the ports (spec/30_encoding.md R80 to R86).
-/

namespace Sys2Proof

/-- One transaction: the command word and the data operand, taken together (R80). -/
structure Command where
  /-- `CMD[15:0]` (R45). -/
  cmd : CmdWord
  /-- `DIN[127:0]` (R46). -/
  din : Din
deriving DecidableEq, Repr

/-- The commands, one constructor for each row of spec/opcode_table.json. -/
inductive Instr where
  /-- INIT: the 16 seed bytes as `DIN` carries them, seed byte `i` in lane `i` (R83, R120). -/
  | init (seed : Din)
  /-- APPEND: the message bytes of lanes `0..LEN-1`, in stream order (R84, R130). -/
  | append (bs : List Byte)
  /-- FINAL: no operand (R85, R150). -/
  | final
deriving DecidableEq, Repr

/-- Why a command word is not legal: the reserved encodings of R88, each by its name. -/
inductive Illegal where
  /-- `RSV` (`CMD[15:8]`) is not 0. -/
  | rsvNotZero
  /-- INIT with `LEN` not 0. -/
  | initLenNotZero
  /-- APPEND with `LEN` 9 to 15. -/
  | appendLenTooBig
  /-- FINAL with `LEN` not 0. -/
  | finalLenNotZero
  /-- `OP` 0x0 or 0x4 to 0xF. -/
  | reservedOp (op : BitVec 4)
deriving DecidableEq, Repr

/-- What a command word decodes to: exactly one command, or ILLEGAL (R89). -/
inductive Decoded where
  | instr (i : Instr)
  | illegal (why : Illegal)
deriving DecidableEq, Repr

end Sys2Proof
end

