-- ==== Sys2Proof/WellFormed.lean ====
section
/-!
DEFINITION. Which terms of `Instr` a legal command word stands for (spec/30_encoding.md R84, R86, R87).
-/

namespace Sys2Proof

/-- INIT takes any 16 bytes (R121) and FINAL has no operand; APPEND carries at most `APPEND_MAX` bytes (R86). -/
def Instr.wellFormed : Instr → Bool
  | .init _ => true
  | .append bs => decide (bs.length ≤ Config.appendMax)
  | .final => true

end Sys2Proof
end

