-- ==== Sys2Proof/Decode.lean ====
section
/-!
DEFINITION. The decoder and the encoder of a command (spec/30_encoding.md R80 to R92), and the reading of a table word.
-/

namespace Sys2Proof

/-- `OP = CMD[3:0]` (R81). -/
def Command.op (c : Command) : BitVec 4 := c.cmd.extractLsb' 0 4

/-- `LEN = CMD[7:4]` (R81). -/
def Command.len (c : Command) : BitVec 4 := c.cmd.extractLsb' 4 4

/-- `RSV = CMD[15:8]` (R81). -/
def Command.rsv (c : Command) : BitVec 8 := c.cmd.extractLsb' 8 8

/-- Byte lane `i` of the data operand: `din(i) = DIN[8i+7:8i]` (R82). -/
def dinLane (d : Din) (i : Nat) : Byte := d.extractLsb' (8 * i) 8

/-- Lanes `0..n-1` in stream order: `[din(0), ..., din(n-1)]` (R83, R84). -/
def dinBytes (d : Din) (n : Nat) : List Byte := (List.range n).map (dinLane d)

/-- Which of the 65536 command words are legal (R87). -/
def legal (w : CmdWord) : Bool :=
  w.extractLsb' 8 8 == 0#8 &&
    ((w.extractLsb' 0 4 == 0x1#4 && w.extractLsb' 4 4 == 0#4) ||
     (w.extractLsb' 0 4 == 0x2#4 && decide (w.extractLsb' 4 4 ≤ 8#4)) ||
     (w.extractLsb' 0 4 == 0x3#4 && w.extractLsb' 4 4 == 0#4))

/-- The decoder of R89, in its order of tests; an illegal word is rejected with the name of its reserved form (R88). -/
def decode (c : Command) : Decoded :=
  if c.rsv ≠ 0#8 then .illegal .rsvNotZero
  else if c.op = 0x1#4 then
    if c.len = 0#4 then .instr (.init c.din) else .illegal .initLenNotZero
  else if c.op = 0x2#4 then
    if c.len.toNat ≤ Config.appendMax then .instr (.append (dinBytes c.din c.len.toNat))
    else .illegal .appendLenTooBig
  else if c.op = 0x3#4 then
    if c.len = 0#4 then .instr .final else .illegal .finalLenNotZero
  else .illegal (.reservedOp c.op)

/-- A data operand whose lane `j` is byte `j` of the list; the lanes past the list are 0 (R90). -/
def packDin : List Byte → Din
  | [] => 0#128
  | b :: bs => (packDin bs <<< 8) ||| b.setWidth 128

/-- The command of an instruction (R90): INIT `0x0001`, APPEND `0x0002 | (n << 4)`, FINAL `0x0003`. -/
def encode : Instr → Command
  | .init seed => { cmd := 0x0001#16, din := seed }
  | .append bs => { cmd := 0x0002#16 ||| (BitVec.ofNat 16 bs.length <<< 4), din := packDin bs }
  | .final => { cmd := 0x0003#16, din := 0#128 }

/-- The command whose bits are `w`, numbered as spec/opcode_table.json numbers them: `CMD` is bits 15..0 and `DIN` counts
on from bit 16; the bits above `nbits` are 0 (DESIGN CHOICE, log entry 15, safe). -/
def tableCommand (nbits w : Nat) : Command :=
  let v := w % 2 ^ nbits
  { cmd := BitVec.ofNat 16 v, din := BitVec.ofNat 128 (v / 2 ^ 16) }

/-- The instruction the decoder reads from the table word `w`; none where it refuses. -/
def decodeTableWord (nbits w : Nat) : Option Instr :=
  match decode (tableCommand nbits w) with
  | .instr i => some i
  | .illegal _ => none

end Sys2Proof
end

