-- ==== Sys2Proof/Machine/Operands.lean ====
section
/-!
DEFINITION. The word reader (spec/40_datapath.md R100) and the seed words (spec/30_encoding.md R83).
-/

namespace Sys2Proof.Machine

/-- The sum of R100 with the first byte at byte position `j`: `zext_64(c) << (8*j)` for each byte. -/
def le64From (j : Nat) : List Byte → Word
  | [] => 0#64
  | c :: cs => (c.setWidth 64 <<< (8 * j)) + le64From (j + 1) cs

/-- `LE64`: byte 0 least significant, missing high bytes 0 (R100). -/
def le64 (bs : List Byte) : Word := le64From 0 bs

/-- The 16 seed bytes, seed byte `i` from lane `i` (R83). -/
def seedList (seed : Din) : List Byte := dinBytes seed Config.seedBytes

/-- `k0 = LE64(seed[0..7])` (R64, R83). -/
def seedK0 (seed : Din) : Word := le64 ((seedList seed).take Config.wordBytes)

/-- `k1 = LE64(seed[8..15])` (R64, R83). -/
def seedK1 (seed : Din) : Word := le64 ((seedList seed).drop Config.wordBytes)

/-- Byte `i` of a word, `w[8i+7:8i]` (R11, R67). -/
def wordByte (w : Word) (i : Nat) : Byte := w.extractLsb' (8 * i) 8

/-- The result as bytes in an order the host chooses: `HOST_OUT_ORDER` is the argument, the byte positions in the order
they are sent (R68, R10, D21). The engine itself delivers the value. -/
def hostBytes (order : List Nat) (h : Word) : List Byte := order.map (wordByte h)

end Sys2Proof.Machine
end

