-- ==== Sys2Proof/Machine/State.lean ====
section
/-!
DEFINITION. The machine's state: the engine instances, each exactly the record of spec/10_state.md R30, and what the model
keeps of the host beside them. `none` in a 64-bit register is the spec's own `⊥`, "holds no value" (R14, R30, R200): the
spec's reset value and what INIT writes to `hash_out`, not a reset value the model lacks (log entry 1, safe).
-/

namespace Sys2Proof.Machine

/-- The lifecycle register (R36). The value 3 is never held, so it has no constructor (log entry 14, safe). -/
inductive Phase where
  /-- 0: no INIT since reset. -/
  | idle
  /-- 1: initialized; appends and one FINAL allowed. -/
  | absorb
  /-- 2: finalized. -/
  | done
deriving DecidableEq, Repr

/-- The fault codes `err` holds (R40, R171). Codes 4 to 15 are never produced, so they have no constructor. -/
inductive ErrCode where
  /-- 0: no fault recorded. -/
  | none
  /-- 1: the command word is not legal. -/
  | illegalCmd
  /-- 2: APPEND or FINAL while no INIT has come since reset. -/
  | notInit
  /-- 3: APPEND or FINAL after FINAL. -/
  | useAfterFinal
deriving DecidableEq, Repr

/-- One engine instance: exactly the state of R30. -/
structure Engine where
  v0 : Option Word
  v1 : Option Word
  v2 : Option Word
  v3 : Option Word
  /-- The message bytes not yet forming a word (R33). -/
  pending : Option Word
  /-- `total_bytes` (R34). -/
  totalBytes : Option Word
  /-- R36. -/
  phase : Phase
  /-- `hash_out`, the result register (R38). -/
  hashOut : Option Word
  /-- R39. -/
  hvalid : Bool
  /-- R40. -/
  err : ErrCode
deriving DecidableEq, Repr

/-- The values of the four lanes, when they hold values (R31). -/
structure Lanes where
  v0 : Word
  v1 : Word
  v2 : Word
  v3 : Word
deriving DecidableEq, Repr

/-- The values APPEND and FINAL work on: the lanes, `pending` and `total_bytes`, when all of them hold values. -/
structure Message where
  lanes : Lanes
  pending : Word
  total : Word
deriving DecidableEq, Repr

/-- An engine instance with the count of commands issued to it, which is not engine state (R42). -/
structure EngineSlot where
  engine : Engine
  issued : Nat
deriving DecidableEq, Repr

/-- One interaction of the host (the four rows of spec/60_exceptions.md R186); `k` names an instance. -/
inductive Input where
  | command (k : Nat) (c : Command)
  | readStatus (k : Nat)
  | readHashOut (k : Nat)
  | reset
deriving DecidableEq, Repr

/-- What a read gives back to the host (R43, R44); `none` is `⊥`. -/
inductive Reading where
  | status (k : Nat) (value : StatusWord)
  | hashOut (k : Nat) (value : Option Word)
deriving DecidableEq, Repr

/-- The platform's engines (R49, R183) and the model's own record of the host (DESIGN CHOICE): the interactions it has
still to make, in its order (R72, log entry 3, unsafe for a host that breaks the handshake), the instance the current
command is addressed to (log entry 4, safe), and what its reads gave (log entry 9, safe). -/
structure State where
  engines : List EngineSlot
  target : Nat
  inputs : List Input
  observed : List Reading
deriving DecidableEq, Repr

/-- Why the model stops without a next state. Misuse of the engine is NOT among these: it is recorded in `err`, and the
machine goes on (R174). -/
inductive Fault where
  /-- Raised by APPEND and FINAL when a register they would read holds `⊥` ("any rule that would read it instead faults",
  R14). No run from reset reaches it. SAFE: the model stops and no value is invented. -/
  | noValue
  /-- Raised by an interaction with an instance the platform does not have (R10, R183). SAFE: the model stops. -/
  | noSuchEngine
deriving DecidableEq, Repr

/-- Why an instruction has no meaning here. -/
inductive Refusal where
  /-- Raised by an arm of `exec` whose instruction has no meaning yet; no arm of this model raises it. SAFE: the model
  stops. -/
  | notModelled (mnemonic : String)
deriving DecidableEq, Repr

/-- An engine right after reset (spec/70_reset_and_hazards.md R200). -/
def Engine.reset : Engine :=
  { v0 := none, v1 := none, v2 := none, v3 := none, pending := none, totalBytes := none
    phase := .idle, hashOut := none, hvalid := false, err := .none }

/-- A platform of `n` engines right after reset, with no interaction of the host yet (R10 `N_ENGINES`, R200). -/
def State.resetOf (n : Nat) : State :=
  { engines := List.replicate n { engine := Engine.reset, issued := 0 }
    target := 0, inputs := [], observed := [] }

/-- The machine right after reset. -/
def State.reset : State := State.resetOf Config.nEngines

end Sys2Proof.Machine
end

