-- ==== Sys2Proof/Machine/Datapath.lean ====
section
/-!
DEFINITION. The datapath functions: rotation (spec/00_scope.md R13), the mixing round and compression
(spec/40_datapath.md R102 to R108), the byte-buffer accumulator (spec/42_append.md R131 to R134) and finalization
(spec/43_finalize.md R151, R152). They are total on every value (R170).
-/

namespace Sys2Proof.Machine

/-- `rotl(x, n) = (x << n) | (x >> (64 - n))`, used for n in 1..63 only (R13, R102; PRESUMED by the
spec's G2, log entry 12, unsafe if wrong). -/
def rotl (x : Word) (n : Nat) : Word := (x <<< n) ||| (x >>> (64 - n))

/-- SipRound, the 14 operations of R105 in their order; `+` wraps modulo 2^64 (R13, R101;
PRESUMED by the spec's G1, log entry 12, unsafe if wrong). -/
def sipRound (l : Lanes) : Lanes :=
  -- line A: operations 1 to 4
  let a0 := l.v0 + l.v1
  let a1 := rotl l.v1 13
  let a1 := a1 ^^^ a0
  let a0 := rotl a0 32
  -- line B: operations 5 to 7
  let a2 := l.v2 + l.v3
  let a3 := rotl l.v3 16
  let a3 := a3 ^^^ a2
  -- line C: operations 8 to 10
  let c0 := a0 + a3
  let c3 := rotl a3 21
  let c3 := c3 ^^^ c0
  -- line D: operations 11 to 14
  let c2 := a2 + a1
  let c1 := rotl a1 17
  let c1 := c1 ^^^ c2
  let c2 := rotl c2 32
  { v0 := c0, v1 := c1, v2 := c2, v3 := c3 }

/-- `n` rounds one after the other. -/
def rounds : Nat → Lanes → Lanes
  | 0, l => l
  | n + 1, l => rounds n (sipRound l)

/-- `C_ROUNDS`: the rounds of each absorbed word (R8, R107). -/
def cRounds : Nat := 2

/-- `D_ROUNDS`: the finalization rounds (R8, R107). -/
def dRounds : Nat := 4

/-- `Compress(m)`: `v3 ^= m`, two rounds, `v0 ^= m` (R108). -/
def compress (l : Lanes) (m : Word) : Lanes :=
  let r := rounds cRounds { l with v3 := l.v3 ^^^ m }
  { r with v0 := r.v0 ^^^ m }

/-- The lanes INIT sets from the seed and the constants `C0..C3` (R103, R120). -/
def initLanes (seed : Din) : Lanes :=
  { v0 := 0x736f6d6570736575#64 ^^^ seedK0 seed
    v1 := 0x646f72616e646f6d#64 ^^^ seedK1 seed
    v2 := 0x6c7967656e657261#64 ^^^ seedK0 seed
    v3 := 0x7465646279746573#64 ^^^ seedK1 seed }

/-- The values INIT leaves: the seeded lanes, nothing pending, nothing counted (R120). -/
def initMessage (seed : Din) : Message := { lanes := initLanes seed, pending := 0#64, total := 0#64 }

/-- Step 1's loop (R132): bytes go into `pending` at positions `r`, `r+1`, ... until 8 are there or the input ends.
It gives the accumulator, the count of bytes in it and the input not taken. -/
def drain (pending : Word) (r : Nat) : List Byte → Word × Nat × List Byte
  | [] => (pending, r, [])
  | b :: bs =>
    if r < 8 then drain (pending ||| (b.setWidth 64 <<< (8 * r))) (r + 1) bs else (pending, r, b :: bs)

/-- Step 2 (R133): each complete group of 8 bytes is read little-endian and compressed. It gives the lanes and the fewer
than 8 bytes left. -/
def bulk (l : Lanes) : List Byte → Lanes × List Byte
  | b0 :: b1 :: b2 :: b3 :: b4 :: b5 :: b6 :: b7 :: bs =>
    bulk (compress l (le64 [b0, b1, b2, b3, b4, b5, b6, b7])) bs
  | bs => (l, bs)

/-- Steps 2 and 3 on a word-aligned stream (R133, R134): the bulk words, then the 1 to 7 bytes left, if any, become
`pending`. -/
def absorbAligned (m : Message) (bs : List Byte) : Message :=
  let (l, rest) := bulk m.lanes bs
  { m with lanes := l, pending := if rest = [] then m.pending else le64 rest }

/-- `Absorb(bs)`, the byte-buffer accumulator, for a byte list of any length (R131). The count is advanced at once and the
drain uses the old one. -/
def absorb (m : Message) (bs : List Byte) : Message :=
  let r := m.total.toNat % 8
  let m := { m with total := m.total + BitVec.ofNat 64 bs.length }
  if r = 0 then absorbAligned m bs
  else
    match drain m.pending r bs with
    | (p, r', rest) =>
      if r' < 8 then { m with pending := p }
      else absorbAligned { m with lanes := compress m.lanes p, pending := 0#64 } rest

/-- The final block: `pending | (total_bytes << 56)`, the shift dropping all but the count's low 8 bits (R151, R154). -/
def finalBlock (m : Message) : Word := m.pending ||| (m.total <<< 56)

/-- The lanes after the finalization sequence: compress the final block, `v2 ^= 0xff`, four rounds (R104, R152). -/
def finalizeLanes (m : Message) : Lanes :=
  let l := compress m.lanes (finalBlock m)
  rounds dRounds { l with v2 := l.v2 ^^^ 0xff#64 }

/-- The output fold `v0 ^ v1 ^ v2 ^ v3` (R38, R152). -/
def foldLanes (l : Lanes) : Word := l.v0 ^^^ l.v1 ^^^ l.v2 ^^^ l.v3

/-- The value `Finalize()` returns (R152). -/
def finalize (m : Message) : Word := foldLanes (finalizeLanes m)

end Sys2Proof.Machine
end

