-- ==== Sys2Proof/Machine/Ops.lean ====
section
/-!
DEFINITION. The named operations on the state: reading and writing an engine instance, the values of a message, the order
in which a command is checked (spec/60_exceptions.md R173), taking a fault (R174), and reset (R200).
-/

namespace Sys2Proof.Machine

open Host (Outcome)

/-- The engine of instance `k`, where the platform has one (R49). -/
def State.engineAt (s : State) (k : Nat) : Option Engine := s.engines[k]?.map EngineSlot.engine

/-- The count of commands issued to instance `k` (R42). -/
def State.issuedAt (s : State) (k : Nat) : Option Nat := s.engines[k]?.map EngineSlot.issued

/-- The state with the engine of instance `k` replaced; no other instance changes (R49). -/
def State.setEngine (s : State) (k : Nat) (e : Engine) : State :=
  { s with engines := s.engines.modify k fun x => { x with engine := e } }

/-- A command is issued to instance `k`: it becomes the target, and its count advances by exactly 1 (R42). -/
def State.aim (s : State) (k : Nat) : State :=
  { s with target := k, engines := s.engines.modify k fun x => { x with issued := x.issued + 1 } }

/-- The host's interactions still to come, replaced. -/
def State.withInputs (s : State) (xs : List Input) : State := { s with inputs := xs }

/-- A read gives the host a value (R186). -/
def State.observe (s : State) (r : Reading) : State := { s with observed := s.observed ++ [r] }

/-- Reset: every engine instance enters the reset state (R200; DEDUCED: one reset for all of them, log entry 7, unsafe for
a platform that resets them one by one). The counts, which are not engine state, stay (DESIGN CHOICE, log entry 8, unsafe
for a claim about a count's absolute value). -/
def State.resetAll (s : State) : State :=
  { s with engines := s.engines.map fun x => { x with engine := Engine.reset } }

/-- The values of the lanes, `pending` and `total_bytes`; none if one of them holds `⊥` (R14;
DESIGN CHOICE: all six together, log entry 2, safe). -/
def Engine.message (e : Engine) : Option Message :=
  match e.v0, e.v1, e.v2, e.v3, e.pending, e.totalBytes with
  | some v0, some v1, some v2, some v3, some p, some t =>
    some { lanes := { v0 := v0, v1 := v1, v2 := v2, v3 := v3 }, pending := p, total := t }
  | _, _, _, _, _, _ => none

/-- The four lanes written (R31). -/
def Engine.setLanes (e : Engine) (l : Lanes) : Engine :=
  { e with v0 := some l.v0, v1 := some l.v1, v2 := some l.v2, v3 := some l.v3 }

/-- The lanes, `pending` and `total_bytes` written (R31, R33, R34). -/
def Engine.setMessage (e : Engine) (m : Message) : Engine :=
  { e.setLanes m.lanes with pending := some m.pending, totalBytes := some m.total }

/-- Taking a fault: `err` gets the code and nothing else changes (R174). There is no return from it but reset (R176). -/
def Engine.takeFault (e : Engine) (code : ErrCode) : Engine := { e with err := code }

/-- What the checks say of a command. -/
inductive Verdict where
  /-- The engine is faulted: the command writes nothing (R175). -/
  | ignored
  /-- The command faults with this code (R171). -/
  | faults (code : ErrCode)
  /-- The command is performed. -/
  | accepted
deriving DecidableEq, Repr

/-- The checks of R173 in their order. `isLegal`: the command word is legal. `usesMessage`: APPEND and FINAL, which have
the phase checks; INIT has none. -/
def Engine.check (isLegal usesMessage : Bool) (e : Engine) : Verdict :=
  if e.err ≠ .none then .ignored
  else if isLegal = false then .faults .illegalCmd
  else if usesMessage = false then .accepted
  else match e.phase with
    | .idle => .faults .notInit
    | .done => .faults .useAfterFinal
    | .absorb => .accepted

/-- A command on one engine: ignored, faulting (a next state: R174) or performed by `act`. -/
def Engine.perform (isLegal usesMessage : Bool) (act : Engine → Outcome Engine Fault Refusal) (e : Engine) :
    Outcome Engine Fault Refusal :=
  match e.check isLegal usesMessage with
  | .ignored => .next e
  | .faults code => .next (e.takeFault code)
  | .accepted => act e

/-- An action on the values of the engine's message, which must all be there (R14). -/
def Engine.onMessage (act : Message → Engine) (e : Engine) : Outcome Engine Fault Refusal :=
  match e.message with
  | none => .fault .noValue
  | some m => .next (act m)

/-- An action on the engine the current command is addressed to (R49). -/
def State.onTarget (s : State) (act : Engine → Outcome Engine Fault Refusal) : Outcome State Fault Refusal :=
  match s.engineAt s.target with
  | none => .fault .noSuchEngine
  | some e =>
    match act e with
    | .next e' => .next (s.setEngine s.target e')
    | .fault r => .fault r
    | .refused r => .refused r

/-- A command word that is not legal: it executes as nothing and faults ILLEGAL_CMD (R87, R88, R174). -/
def illegalCommand (s : State) : Outcome State Fault Refusal :=
  s.onTarget (Engine.perform false false .next)

end Sys2Proof.Machine
end

