-- ==== Sys2Proof/Machine/Append.lean ====
section
/-!
DEFINITION. APPEND (spec/42_append.md R130).
-/

namespace Sys2Proof.Machine

open Host (Outcome)

/-- APPEND on one engine: legal with at most 8 bytes, the phase checks, then `Absorb`; `phase`, `hvalid`, `hash_out` and
`err` stay (R130). -/
def Engine.runAppend (bs : List Byte) : Engine → Outcome Engine Fault Refusal :=
  Engine.perform (Instr.wellFormed (.append bs)) true fun e => e.onMessage fun m => e.setMessage (absorb m bs)

/-- APPEND on the addressed engine. -/
def execAppend (bs : List Byte) (s : State) : Outcome State Fault Refusal := s.onTarget (Engine.runAppend bs)

end Sys2Proof.Machine
end

