-- ==== Sys2Proof/Machine/Final.lean ====
section
/-!
DEFINITION. FINAL (spec/43_finalize.md R150).
-/

namespace Sys2Proof.Machine

open Host (Outcome)

/-- What FINAL writes: the lanes, `hash_out`, `hvalid` 1 and `phase` DONE; `pending` and `total_bytes` are read, not
written (R150, R152). -/
def Engine.finish (m : Message) (e : Engine) : Engine :=
  { e.setLanes (finalizeLanes m) with hashOut := some (finalize m), hvalid := true, phase := .done }

/-- FINAL on one engine: the phase checks, then the finalization sequence (R150). -/
def Engine.runFinal : Engine → Outcome Engine Fault Refusal :=
  Engine.perform (Instr.wellFormed .final) true fun e => e.onMessage fun m => e.finish m

/-- FINAL on the addressed engine. -/
def execFinal (s : State) : Outcome State Fault Refusal := s.onTarget Engine.runFinal

end Sys2Proof.Machine
end

