-- ==== Sys2Proof/Machine/Init.lean ====
section
/-!
DEFINITION. INIT (spec/41_init.md R120 to R122).
-/

namespace Sys2Proof.Machine

open Host (Outcome)

/-- What INIT writes: the seeded lanes, `pending` and `total_bytes` 0, `phase` ABSORB, `hvalid` 0 and `hash_out` `⊥`; not
`err` (R120). -/
def Engine.start (seed : Din) (e : Engine) : Engine :=
  { e.setMessage (initMessage seed) with phase := .absorb, hvalid := false, hashOut := none }

/-- INIT on one engine: no phase check (R120, R173). -/
def Engine.runInit (seed : Din) : Engine → Outcome Engine Fault Refusal :=
  Engine.perform (Instr.wellFormed (.init seed)) false fun e => .next (e.start seed)

/-- INIT on the addressed engine. -/
def execInit (seed : Din) (s : State) : Outcome State Fault Refusal := s.onTarget (Engine.runInit seed)

end Sys2Proof.Machine
end

