-- ==== Sys2Proof/Machine/Dispatch.lean ====
section
/-!
DEFINITION. One arm for each command, each calling its meaning.
-/

namespace Sys2Proof.Machine

def exec (i : Instr) (s : State) : Host.Outcome State Fault Refusal :=
  match i with
  | .init seed => Sys2Proof.Machine.execInit seed s
  | .append bs => Sys2Proof.Machine.execAppend bs s
  | .final => Sys2Proof.Machine.execFinal s

end Sys2Proof.Machine
end

