-- ==== Sys2Proof/Machine/Flags.lean ====
section
/-!
DEFINITION. The two output ports: the STATUS register with its fields, the only flags of the engine (spec/10_state.md R43,
R47), and HASH_OUT (R44).
-/

namespace Sys2Proof.Machine

/-- The 2-bit code of a phase (R36). -/
def Phase.code : Phase → BitVec 2
  | .idle => 0#2
  | .absorb => 1#2
  | .done => 2#2

/-- The 4-bit fault code (R171). -/
def ErrCode.code : ErrCode → BitVec 4
  | .none => 0#4
  | .illegalCmd => 1#4
  | .notInit => 2#4
  | .useAfterFinal => 3#4

/-- STATUS: PHASE [1:0], HVALID [2], 0 [3], ERR [7:4], 0 [31:8] (R43). -/
def Engine.status (e : Engine) : StatusWord :=
  0#24 ++ e.err.code ++ 0#1 ++ BitVec.ofBool e.hvalid ++ e.phase.code

/-- HASH_OUT: `hash_out` while `hvalid` = 1; no value otherwise (R44). -/
def Engine.hashPort (e : Engine) : Option Word := if e.hvalid then e.hashOut else none

end Sys2Proof.Machine
end

