-- ==== Sys2Proof/Machine/Port.lean ====
section
/-!
DEFINITION. What the engines do in each interaction of the host (spec/60_exceptions.md R186, spec/20_memory.md R71, R72).
-/

namespace Sys2Proof.Machine

open Host (Outcome)

/-- The host issues a command to instance `k`: it is decoded and performed in one atomic step (R15, R72), and the
instance's command count advances whether it faults or not (R42). -/
def performCommand (k : Nat) (c : Command) (s : State) : Outcome State Fault Refusal :=
  match decode c with
  | .instr i => exec i (s.aim k)
  | .illegal _ => illegalCommand (s.aim k)

/-- A read of an output port of instance `k`: the host gets the value and no engine changes (R43, R44, R71). -/
def readPort (k : Nat) (reading : Engine → Reading) (s : State) : Outcome State Fault Refusal :=
  match s.engineAt k with
  | none => .fault .noSuchEngine
  | some e => .next (s.observe (reading e))

/-- One interaction of the host (R186). -/
def takeInput (x : Input) (s : State) : Outcome State Fault Refusal :=
  match x with
  | .command k c => performCommand k c s
  | .readStatus k => readPort k (fun e => .status k e.status) s
  | .readHashOut k => readPort k (fun e => .hashOut k e.hashPort) s
  | .reset => .next s.resetAll

/-- With no interaction the engines hold their state unchanged, indefinitely (R185, R202; DEDUCED, log
entry 10, safe). -/
def waitForHost (s : State) : Outcome State Fault Refusal := .next s

end Sys2Proof.Machine
end

