-- ==== Sys2Proof/Machine/Step.lean ====
section
/-!
DEFINITION. One step of the machine: the host's next interaction is taken, in the host's order (spec/20_memory.md R72).
-/

namespace Sys2Proof.Machine

/-- One step. The engine fetches nothing (R42): what a step takes next is the host's oldest interaction not yet taken. -/
def step (s : State) : Host.Outcome State Fault Refusal :=
  match s.inputs with
  | [] => waitForHost s
  | x :: rest => takeInput x (s.withInputs rest)

/-- The state in which the host's next interaction is the command with the table word `w`, issued to instance 0 (log
entry 3). -/
def State.withFetchWord (s : State) (nbits w : Nat) : State :=
  s.withInputs (.command 0 (tableCommand nbits w) :: s.inputs)

end Sys2Proof.Machine
end

