-- ==== Sys2Proof/Machine/Pipeline.lean ====
section
/-!
DEFINITION. The structure the spec gives the two round blocks: a round as two half-rounds whose lines are computed at the
same time (spec/40_datapath.md R106), and the finalization round controller as eight ordered steps
(spec/43_finalize.md R153). Both describe functions of Datapath.lean; neither is state of the machine (R48).
-/

namespace Sys2Proof.Machine

/-- Line A: reads and writes `v0` and `v1` only. -/
def lineA (v0 v1 : Word) : Word × Word :=
  let s := v0 + v1
  (rotl s 32, rotl v1 13 ^^^ s)

/-- Line B: reads and writes `v2` and `v3` only. -/
def lineB (v2 v3 : Word) : Word × Word :=
  let s := v2 + v3
  (s, rotl v3 16 ^^^ s)

/-- Line C: reads and writes `v0` and `v3` only. -/
def lineC (v0 v3 : Word) : Word × Word :=
  let s := v0 + v3
  (s, rotl v3 21 ^^^ s)

/-- Line D: reads and writes `v2` and `v1` only. -/
def lineD (v2 v1 : Word) : Word × Word :=
  let s := v2 + v1
  (rotl s 32, rotl v1 17 ^^^ s)

/-- The first half-round: A and B from the round's input. -/
def halfRoundAB (l : Lanes) : Lanes :=
  { v0 := (lineA l.v0 l.v1).1, v1 := (lineA l.v0 l.v1).2, v2 := (lineB l.v2 l.v3).1, v3 := (lineB l.v2 l.v3).2 }

/-- The second half-round: C and D from what A and B gave. -/
def halfRoundCD (l : Lanes) : Lanes :=
  { v0 := (lineC l.v0 l.v3).1, v1 := (lineD l.v2 l.v1).2, v2 := (lineD l.v2 l.v1).1, v3 := (lineC l.v0 l.v3).2 }

/-- The controller's working values: the lanes, the final block, the result, and how many SipRounds have run. -/
structure FinalRun where
  lanes : Lanes
  block : Word
  result : Word
  roundsDone : Nat
deriving DecidableEq, Repr

/-- The controller's steps F0 to F6 on the engine's values; F7 writes them to the engine (`Engine.finish`). -/
inductive FinalStep where
  | f0 | f1 | f2 | f3 | f4 | f5 | f6
deriving DecidableEq, Repr

/-- One step of the controller (the table of R153). -/
def FinalStep.run (m : Message) (f : FinalRun) : FinalStep → FinalRun
  | .f0 => { f with block := finalBlock m }
  | .f1 => { f with lanes := { f.lanes with v3 := f.lanes.v3 ^^^ f.block } }
  | .f2 => { f with lanes := rounds cRounds f.lanes, roundsDone := f.roundsDone + cRounds }
  | .f3 => { f with lanes := { f.lanes with v0 := f.lanes.v0 ^^^ f.block } }
  | .f4 => { f with lanes := { f.lanes with v2 := f.lanes.v2 ^^^ 0xff#64 } }
  | .f5 => { f with lanes := rounds dRounds f.lanes, roundsDone := f.roundsDone + dRounds }
  | .f6 => { f with result := foldLanes f.lanes }

/-- The whole sequence, from the message's lanes. -/
def runController (m : Message) : FinalRun :=
  [FinalStep.f0, .f1, .f2, .f3, .f4, .f5, .f6].foldl (FinalStep.run m)
    { lanes := m.lanes, block := 0#64, result := 0#64, roundsDone := 0 }

/-- The SipRounds a performed command runs when `total` bytes were counted before it (the table of R211). -/
def commandRounds (total : Word) : Instr → Nat
  | .init _ => 0
  | .append bs => if total.toNat % 8 + bs.length < 8 then 0 else cRounds
  | .final => cRounds + dRounds

end Sys2Proof.Machine
end

