-- ==== Sys2Proof/Machine/Stream.lean ====
section
/-!
DEFINITION. The pseudo-instructions APPENDBUF and HASH as the command sequences they expand to (spec/44_oneshot.md R160,
R161; spec/30_encoding.md R91), the one-shot hash they compute, and the stream cut into words (spec/42_append.md R136).
-/

namespace Sys2Proof.Machine

open Host (Outcome)

/-- A byte list cut into pieces of 8 bytes and one shorter piece, if any (R161). -/
def pieces : List Byte → List (List Byte)
  | b0 :: b1 :: b2 :: b3 :: b4 :: b5 :: b6 :: b7 :: bs => [b0, b1, b2, b3, b4, b5, b6, b7] :: pieces bs
  | [] => []
  | bs => [bs]

/-- APPENDBUF `M`: one APPEND for each piece; no command at all for the empty buffer (R161). -/
def appendBuf (msg : List Byte) : List Instr := (pieces msg).map .append

/-- HASH `seed, M`: INIT, APPENDBUF, FINAL (R160). -/
def hashCommands (seed : Din) (msg : List Byte) : List Instr := .init seed :: (appendBuf msg ++ [.final])

/-- Commands as the host issues them to instance `k`, in order (R72, R90). -/
def issue (k : Nat) (is : List Instr) : List Input := is.map fun i => .command k (encode i)

/-- Commands performed one after the other on the addressed engine, each seeing every effect of those before it (R72). -/
def execAll : List Instr → State → Outcome State Fault Refusal
  | [], s => .next s
  | i :: is, s =>
    match exec i s with
    | .next s' => execAll is s'
    | .fault r => .fault r
    | .refused r => .refused r

/-- Commands to any instances, performed one after the other in the order they are issued (R72). -/
def performAll : List (Nat × Command) → State → Outcome State Fault Refusal
  | [], s => .next s
  | x :: xs, s =>
    match performCommand x.1 x.2 s with
    | .next s' => performAll xs s'
    | .fault r => .fault r
    | .refused r => .refused r

/-- The one-shot hash: `Finalize()` over the state INIT and then `Absorb(M)` leave (R160). -/
def oneShot (seed : Din) (msg : List Byte) : Word := finalize (absorb (initMessage seed) msg)

/-- The complete 8-byte words of a stream, in order (R136). -/
def streamWords (bs : List Byte) : List Word := ((pieces bs).filter fun p => p.length == 8).map le64

/-- The bytes after the last complete word (R136). -/
def streamTail (bs : List Byte) : List Byte := bs.drop (8 * (bs.length / 8))

end Sys2Proof.Machine
end

