-- ==== Sys2Proof/Safety.lean ====
section
/-!
DEFINITION. What claims call a good state and a good run, and the invariant every step keeps.
-/

namespace Sys2Proof.Machine

/-- No fault recorded (R40, R175). -/
abbrev Engine.Good (e : Engine) : Prop := e.err = .none

/-- A state with a faulted engine is never a final state of a good run (R175; DEDUCED: a state is good when no engine has a
code recorded, log entry 16, safe). -/
abbrev State.Good (s : State) : Prop := ∀ x ∈ s.engines, x.engine.Good

/-- `m` obeys the accumulator's invariant (R33): the bytes of `pending` from position `total_bytes mod 8` up are 0. -/
abbrev Message.Aligned (m : Message) : Prop := m.pending.toNat < 2 ^ (8 * (m.total.toNat % 8))

/-- What holds of an engine between commands.
IDLE: no register holds a value and no result is valid (R36, R200).
ABSORB: lanes, `pending` and `total_bytes` hold values, the accumulator's invariant holds, and there is no result (R33,
R38, R39).
DONE: they hold values too, and `hash_out` is the fold of the lanes and valid (R38, R39, R152, R155). -/
abbrev Engine.Inv (e : Engine) : Prop :=
  match e.phase with
  | .idle => e.v0 = none ∧ e.v1 = none ∧ e.v2 = none ∧ e.v3 = none ∧ e.pending = none ∧ e.totalBytes = none ∧
      e.hashOut = none ∧ e.hvalid = false
  | .absorb => (∃ m, e.message = some m ∧ m.Aligned) ∧ e.hashOut = none ∧ e.hvalid = false
  | .done => (∃ m, e.message = some m ∧ m.Aligned ∧ e.hashOut = some (foldLanes m.lanes)) ∧ e.hvalid = true

/-- The platform has an engine (R10), and every engine obeys its invariant. -/
abbrev State.Inv (s : State) : Prop := s.engines ≠ [] ∧ ∀ x ∈ s.engines, x.engine.Inv

/-- The instance an interaction addresses exists (R183); reset addresses none. -/
abbrev Input.Addresses (s : State) : Input → Prop
  | .command k _ => k < s.engines.length
  | .readStatus k => k < s.engines.length
  | .readHashOut k => k < s.engines.length
  | .reset => True

end Sys2Proof.Machine
end

