-- ==== Sys2Proof/Certificates/Slice0/Obligations.lean ====
section
/-!
DEFINITION. The statements about the machine. Each docstring names the rule of spec/ it formalises, or the sentences it is
derived from. Every statement about `step`, `run` or `exec` speaks of the host through the list of interactions and of the
addressed instance through `target`, the model's own form (DESIGN CHOICE, log entries 3 and 4), and of a register at `⊥`
as `none` (log entry 1); any further choice of the model a statement rests on is named in its docstring.
-/

open Sys2Proof Sys2Proof.Machine

/-! ### Command words (spec/30_encoding.md) -/

/-- Derived (R81 to R85, R90): decoding the encoding of a well-formed command gives it back with every operand. -/
def Obligations.DecodeOfEncode : Prop :=
  ∀ i : Instr, i.wellFormed = true → decode (encode i) = .instr i

/-- Derived (R70, R81 to R85): a decoded command is well-formed, and encoding it gives back the command word and every
data lane the command reads. -/
def Obligations.EncodeOfDecodeRestoresWhatIsRead : Prop :=
  ∀ (c : Command) (i : Instr), decode c = .instr i →
    i.wellFormed = true ∧ (encode i).cmd = c.cmd ∧
      match i with
      | .init _ => (encode i).din = c.din
      | .append bs => bs.length = c.len.toNat ∧ ∀ j < bs.length, dinLane (encode i).din j = dinLane c.din j
      | .final => True

/-- R87 and R88. With `op`, `len` and `rsv` the fields of the word as numbers: the legality formula, the eleven legal
words, the reserved forms; legality is read off `CMD` alone; and an illegal word on an engine with no fault recorded
(R173, R175) raises ILLEGAL_CMD whatever the phase and does nothing else. -/
def Obligations.LegalAndReservedWords : Prop :=
  ∀ (w : CmdWord) (din : Din),
    let op := w.toNat % 16
    let len := w.toNat / 16 % 16
    let rsv := w.toNat / 256
    (legal w = true ↔ rsv = 0 ∧ ((op = 1 ∧ len = 0) ∨ (op = 2 ∧ len ≤ 8) ∨ (op = 3 ∧ len = 0))) ∧
    (legal w = true ↔ w ∈ [0x0001#16, 0x0002#16, 0x0012#16, 0x0022#16, 0x0032#16, 0x0042#16, 0x0052#16, 0x0062#16,
      0x0072#16, 0x0082#16, 0x0003#16]) ∧
    (legal w = false ↔
      (op = 0 ∨ 4 ≤ op) ∨ (op = 2 ∧ 9 ≤ len) ∨ ((op = 1 ∨ op = 3) ∧ len ≠ 0) ∨ rsv ≠ 0) ∧
    (legal w = false ↔ ∃ why, decode { cmd := w, din := din } = .illegal why) ∧
    (legal w = false → ∀ (s : State) (k : Nat) (rest : List Input) (e : Engine),
      s.inputs = .command k { cmd := w, din := din } :: rest → s.engineAt k = some e → e.err = .none →
        step s = .next (((s.withInputs rest).aim k).setEngine k { e with err := .illegalCmd }))

/-- Derived (the decoder of R89, which the spec derives from R81, R86 and R87): every word decodes to exactly one of
INIT, APPEND(LEN), FINAL and ILLEGAL, by the tests of R89 in their order. -/
def Obligations.DecoderFollowsItsTests : Prop :=
  ∀ c : Command,
    let w := c.cmd.toNat
    if w / 256 ≠ 0 then ∃ why, decode c = .illegal why
    else if w % 16 = 1 ∧ w / 16 = 0 then decode c = .instr (.init c.din)
    else if w % 16 = 2 ∧ w / 16 ≤ 8 then
      decode c = .instr (.append ((List.range (w / 16)).map fun j => c.din.extractLsb' (8 * j) 8))
    else if w % 16 = 3 ∧ w / 16 = 0 then decode c = .instr .final
    else ∃ why, decode c = .illegal why

/-- Derived (the rows of R92 and of V85 to V92): what the spec's own command words decode to. -/
def Obligations.DecodedWordsOfTheSpec : Prop :=
  decode { cmd := 0x0001#16, din := 0x66656463626139383736353433323130#128 } =
    .instr (.init 0x66656463626139383736353433323130#128) ∧
  decode { cmd := 0x0002#16, din := 0#128 } = .instr (.append []) ∧
  decode { cmd := 0x0032#16, din := 0x00000000000000000000000000020100#128 } =
    .instr (.append [0x00#8, 0x01#8, 0x02#8]) ∧
  decode { cmd := 0x0082#16, din := 0x00000000000000000a09080706050403#128 } =
    .instr (.append [0x03#8, 0x04#8, 0x05#8, 0x06#8, 0x07#8, 0x08#8, 0x09#8, 0x0a#8]) ∧
  decode { cmd := 0x0003#16, din := 0#128 } = .instr .final ∧
  decode { cmd := 0x0092#16, din := 0#128 } = .illegal .appendLenTooBig ∧
  decode { cmd := 0x0013#16, din := 0#128 } = .illegal .finalLenNotZero ∧
  decode { cmd := 0x8001#16, din := 0#128 } = .illegal .rsvNotZero ∧
  decode { cmd := 0x00f5#16, din := 0#128 } = .illegal (.reservedOp 5#4) ∧
  decode { cmd := 0x0000#16, din := 0#128 } = .illegal (.reservedOp 0#4)

/-- R139 and R85: two APPENDs with the same LEN and the same lanes below LEN take every state to the same outcome, and
so do two FINALs with any data operands. -/
def Obligations.UnreadLanesNeverMatter : Prop :=
  (∀ (c d : Command), c.op = 0x2#4 → c.cmd = d.cmd → (∀ j < c.len.toNat, dinLane c.din j = dinLane d.din j) →
    ∀ (k : Nat) (s : State) (rest : List Input),
      step (s.withInputs (.command k c :: rest)) = step (s.withInputs (.command k d :: rest))) ∧
  (∀ (din din' : Din) (k : Nat) (s : State) (rest : List Input),
    step (s.withInputs (.command k { cmd := 0x0003#16, din := din } :: rest)) =
      step (s.withInputs (.command k { cmd := 0x0003#16, din := din' } :: rest)))

/-! ### The step -/

/-- Derived (R15, R42, R72; log entries 3 and 4 for the input list and the target): the step on a command that decodes
is `exec` of the decoded instruction, on the state whose command has been taken off the inputs and aimed at its
instance. -/
def Obligations.StepRunsTheDecodedInstruction : Prop :=
  ∀ (s : State) (k : Nat) (c : Command) (rest : List Input) (i : Instr),
    s.inputs = .command k c :: rest → decode c = .instr i → step s = exec i ((s.withInputs rest).aim k)

/-- Derived (R186, R185, R43, R44, R200): the step on every other interaction, and on none. The model's choices in it
are log entries 3 and 4 (the input list and the target), 7 (one reset reaches every instance, DEDUCED from R200), 8 (a
reset keeps the command counts, DESIGN CHOICE), 9 (the record of readings, DESIGN CHOICE) and 10 (a step with nothing
to do answers the same state, DEDUCED from R185 and R202). -/
def Obligations.StepOnTheOtherInteractions : Prop :=
  ∀ (s : State) (k : Nat) (rest : List Input),
    (s.inputs = [] → step s = .next s) ∧
    (s.inputs = .reset :: rest → step s = .next (s.withInputs rest).resetAll) ∧
    (∀ e, s.engineAt k = some e → s.inputs = .readStatus k :: rest →
      step s = .next ((s.withInputs rest).observe (.status k e.status))) ∧
    (∀ e, s.engineAt k = some e → s.inputs = .readHashOut k :: rest →
      step s = .next ((s.withInputs rest).observe (.hashOut k (if e.hvalid then e.hashOut else none)))) ∧
    (∀ c why, s.inputs = .command k c :: rest → decode c = .illegal why →
      step s = illegalCommand ((s.withInputs rest).aim k))

/-- Derived (R42): every command to an instance the platform has, faulting or not, advances that instance's count by
exactly 1 and no other's; nothing else the host does moves a count. The model's choices in it: a reset keeps the counts
(log entry 8, DESIGN CHOICE), and so does a step with nothing to do (log entry 10, DEDUCED from R185 and R202). -/
def Obligations.CommandsAreCounted : Prop :=
  ∀ (s t : State), step s = .next t →
    (∀ (k : Nat) (c : Command) (rest : List Input), s.inputs = .command k c :: rest →
      (∃ n, s.issuedAt k = some n ∧ t.issuedAt k = some (n + 1)) ∧ ∀ j ≠ k, t.issuedAt j = s.issuedAt j) ∧
    ((∀ (k : Nat) (c : Command) (rest : List Input), s.inputs ≠ .command k c :: rest) →
      ∀ j, t.issuedAt j = s.issuedAt j)

/-- Derived (R72): the state after commands issued in order is the fold of their single steps over the state: each sees
every effect of those before it, and none is reordered, merged or dropped. Where a command stops, which is the model's
choice alone (log entries 2 and 6, DESIGN CHOICE), the run stops there. -/
def Obligations.CommandsTakeEffectInOrder : Prop :=
  ∀ (cs : List (Nat × Command)) (s : State) (rest : List Input),
    s.inputs = cs.map (fun x => .command x.1 x.2) ++ rest →
      Host.Core.run core cs.length s = performAll cs (s.withInputs rest)

/-! ### INIT, APPEND and FINAL on the addressed engine -/

/-- R120. INIT on an engine with no fault recorded answers the state with the seeded lanes, whatever the engine held;
`k0` and `k1` are the low and the high half of `DIN`. On a faulted engine it is ignored. Any other word with OP = 0x1
faults ILLEGAL_CMD. The worked example and the all-zero seed are instances. -/
def Obligations.InitEffect : Prop :=
  (∀ (seed : Din) (s : State) (e : Engine), s.engineAt s.target = some e → e.err = .none →
    exec (.init seed) s = .next (s.setEngine s.target
      { v0 := some (0x736f6d6570736575#64 ^^^ seed.extractLsb' 0 64)
        v1 := some (0x646f72616e646f6d#64 ^^^ seed.extractLsb' 64 64)
        v2 := some (0x6c7967656e657261#64 ^^^ seed.extractLsb' 0 64)
        v3 := some (0x7465646279746573#64 ^^^ seed.extractLsb' 64 64)
        pending := some 0#64, totalBytes := some 0#64
        phase := .absorb, hashOut := none, hvalid := false, err := .none })) ∧
  (∀ (seed : Din) (s : State) (e : Engine), s.engineAt s.target = some e → e.err ≠ .none →
    exec (.init seed) s = .next s) ∧
  (∀ (c : Command) (k : Nat) (s : State) (rest : List Input) (e : Engine), c.op = 0x1#4 → c.cmd ≠ 0x0001#16 →
    s.inputs = .command k c :: rest → s.engineAt k = some e → e.err = .none →
      step s = .next (((s.withInputs rest).aim k).setEngine k { e with err := .illegalCmd }))

/-- Derived (R120's "two INITs in a row give the same state as the second alone", with R13 for the values). -/
def Obligations.InitForgetsTheEngine : Prop :=
  ∀ (seed seed' : Din) (s t : State) (e : Engine), s.engineAt s.target = some e → e.err = .none →
    exec (.init seed) s = .next t → exec (.init seed') t = exec (.init seed') s

/-- Derived (R122, R64): seed byte `i` reaches byte `i` of `v0` and `v2`, and seed byte `8 + i` byte `i` of `v1` and
`v3`, and no other byte of a lane. -/
def Obligations.SeedBytesReachTheirLanes : Prop :=
  ∀ (seed : Din) (i : Nat), i < 8 →
    wordByte (initLanes seed).v0 i = wordByte 0x736f6d6570736575#64 i ^^^ dinLane seed i ∧
    wordByte (initLanes seed).v1 i = wordByte 0x646f72616e646f6d#64 i ^^^ dinLane seed (8 + i) ∧
    wordByte (initLanes seed).v2 i = wordByte 0x6c7967656e657261#64 i ^^^ dinLane seed i ∧
    wordByte (initLanes seed).v3 i = wordByte 0x7465646279746573#64 i ^^^ dinLane seed (8 + i)

/-- Derived (R130, R131, R173). The checks in their order and, where they pass, `Absorb` on the engine's values with
`phase`, `hvalid`, `hash_out` and `err` as they were. (What `absorb` gives is stated by `AbsorbCutsTheStream`.) The
words with OP = 0x2 and LEN 9 to 15 or RSV not 0 fault ILLEGAL_CMD. The model's choices in it: the six registers are
asked for a value together (log entry 2, DESIGN CHOICE), and a faulted engine ignores also a term of more than 8
bytes, which no word encodes (log entry 19, DEDUCED from R130). -/
def Obligations.AppendEffect : Prop :=
  (∀ (bs : List Byte) (s : State) (e : Engine), s.engineAt s.target = some e →
    (e.err ≠ .none → exec (.append bs) s = .next s) ∧
    (e.err = .none → bs.length ≤ 8 → e.phase = .idle →
      exec (.append bs) s = .next (s.setEngine s.target { e with err := .notInit })) ∧
    (e.err = .none → bs.length ≤ 8 → e.phase = .done →
      exec (.append bs) s = .next (s.setEngine s.target { e with err := .useAfterFinal })) ∧
    (e.err = .none → bs.length ≤ 8 → e.phase = .absorb → ∀ m, e.message = some m →
      exec (.append bs) s = .next (s.setEngine s.target
        { e with
          v0 := some (absorb m bs).lanes.v0, v1 := some (absorb m bs).lanes.v1
          v2 := some (absorb m bs).lanes.v2, v3 := some (absorb m bs).lanes.v3
          pending := some (absorb m bs).pending
          totalBytes := some (m.total + BitVec.ofNat 64 bs.length) }))) ∧
  (∀ (c : Command) (k : Nat) (s : State) (rest : List Input) (e : Engine), c.op = 0x2#4 →
    (8 < c.len.toNat ∨ c.rsv ≠ 0#8) → s.inputs = .command k c :: rest → s.engineAt k = some e → e.err = .none →
      step s = .next (((s.withInputs rest).aim k).setEngine k { e with err := .illegalCmd }))

/-- Derived (R150, R152, R173). The checks in their order and, where they pass, the finalization sequence: the lanes,
`hash_out`, `hvalid` and `phase` are written, `pending` and `total_bytes` are not. (What the sequence gives is stated
by `FinalizationSequence`.) The words with OP = 0x3 and LEN or RSV not 0 fault ILLEGAL_CMD. That the six registers are
asked for a value together is the model's choice (log entry 2, DESIGN CHOICE). -/
def Obligations.FinalEffect : Prop :=
  (∀ (s : State) (e : Engine), s.engineAt s.target = some e →
    (e.err ≠ .none → exec .final s = .next s) ∧
    (e.err = .none → e.phase = .idle → exec .final s = .next (s.setEngine s.target { e with err := .notInit })) ∧
    (e.err = .none → e.phase = .done →
      exec .final s = .next (s.setEngine s.target { e with err := .useAfterFinal })) ∧
    (e.err = .none → e.phase = .absorb → ∀ m, e.message = some m →
      exec .final s = .next (s.setEngine s.target
        { e with
          v0 := some (finalizeLanes m).v0, v1 := some (finalizeLanes m).v1
          v2 := some (finalizeLanes m).v2, v3 := some (finalizeLanes m).v3
          hashOut := some (finalize m), hvalid := true, phase := .done }))) ∧
  (∀ (c : Command) (k : Nat) (s : State) (rest : List Input) (e : Engine), c.op = 0x3#4 →
    (c.len ≠ 0#4 ∨ c.rsv ≠ 0#8) → s.inputs = .command k c :: rest → s.engineAt k = some e → e.err = .none →
      step s = .next (((s.withInputs rest).aim k).setEngine k { e with err := .illegalCmd }))

/-! ### Frames -/

/-- Derived (R30, R31, R49): INIT, APPEND and FINAL, where they answer a next state, leave every other instance, every
count, the target, the inputs and the readings as they were. It is said also of an APPEND term of more than 8 bytes,
which no word encodes and whose effect is the model's choice (log entry 19, DEDUCED from R130). -/
def Obligations.CommandsTouchOneEngine : Prop :=
  ∀ (i : Instr) (s t : State), exec i s = .next t →
    t.target = s.target ∧ t.inputs = s.inputs ∧ t.observed = s.observed ∧ t.engines.length = s.engines.length ∧
      (∀ j, t.issuedAt j = s.issuedAt j) ∧ ∀ j ≠ s.target, t.engineAt j = s.engineAt j

/-- Derived (R120, R130, R150, R174, R175): the frame of each command on the addressed engine.
INIT never writes `err`.
APPEND leaves `phase`, `hvalid` and `hash_out`; `pending` when it carries no byte; the lanes when no word completes;
`err` unless it faults; and everything but `err` when it is not performed.
FINAL leaves `pending` and `total_bytes`; `err` unless it faults; and everything but `err` when it is not performed.
That an APPEND term of more than 8 bytes, which no word encodes, is not performed and faults is the model's choice (log
entry 19, DEDUCED from R130's legality check). -/
def Obligations.EngineFrames : Prop :=
  ∀ (s t : State) (e e' : Engine), s.engineAt s.target = some e → t.engineAt s.target = some e' →
    (∀ seed, exec (.init seed) s = .next t → e'.err = e.err ∧ (e.err ≠ .none → e' = e)) ∧
    (∀ bs, exec (.append bs) s = .next t →
      e'.phase = e.phase ∧ e'.hvalid = e.hvalid ∧ e'.hashOut = e.hashOut ∧
      (bs = [] → e'.pending = e.pending) ∧
      (∀ n, e.totalBytes = some n → n.toNat % 8 + bs.length < 8 →
        e'.v0 = e.v0 ∧ e'.v1 = e.v1 ∧ e'.v2 = e.v2 ∧ e'.v3 = e.v3) ∧
      (e.err = .none → e.phase = .absorb → bs.length ≤ 8 → e'.err = e.err) ∧
      (e.err ≠ .none ∨ e.phase ≠ .absorb ∨ 8 < bs.length → e' = { e with err := e'.err })) ∧
    (exec .final s = .next t →
      e'.pending = e.pending ∧ e'.totalBytes = e.totalBytes ∧
      (e.err = .none → e.phase = .absorb → e'.err = e.err) ∧
      (e.err ≠ .none ∨ e.phase ≠ .absorb → e' = { e with err := e'.err }))

/-! ### The datapath (spec/40_datapath.md) -/

/-- Derived (R100, R67): the word reader is the sum of R100, and byte `j` of the word it reads is byte `j` of the
list, 0 past its end. -/
def Obligations.WordReader : Prop :=
  ∀ bs : List Byte, bs.length ≤ 8 →
    (le64 bs).toNat = ((List.range bs.length).map fun j => (bs.getD j 0#8).toNat * 2 ^ (8 * j)).sum ∧
      ∀ j < 8, wordByte (le64 bs) j = bs.getD j 0#8

/-- Derived (R83's "so `k0 = DIN[63:0]` and `k1 = DIN[127:64]`"). -/
def Obligations.SeedWordsAreTheHalves : Prop :=
  ∀ seed : Din, seedK0 seed = seed.extractLsb' 0 64 ∧ seedK1 seed = seed.extractLsb' 64 64

/-- Derived (R13's `rotl`, which the spec supplies from general knowledge, G2, log entry 12): for every amount in
1..63 it is the 64-bit rotation: bit `i` of the result is bit `(i + 64 - n) mod 64` of the operand. -/
def Obligations.RotlRotates : Prop :=
  ∀ (x : Word) (n i : Nat), 1 ≤ n → n ≤ 63 → i < 64 → (rotl x n).getLsbD i = x.getLsbD ((i + 64 - n) % 64)

/-- Derived (R105, R102, R101; `+` wraps by R13, which the spec supplies from general knowledge, G1, log entry 12):
the 14 operations of SipRound in their order, each reading what the earlier ones wrote. -/
def Obligations.SipRoundOperations : Prop :=
  ∀ (l : Lanes) (a0 a1 b0 b1 b2 b3 c0 c3 d1 d2 : Word),
    a0 = BitVec.ofNat 64 (l.v0.toNat + l.v1.toNat) →
    a1 = l.v1.rotateLeft 13 ^^^ a0 →
    b0 = a0.rotateLeft 32 →
    b2 = BitVec.ofNat 64 (l.v2.toNat + l.v3.toNat) →
    b3 = l.v3.rotateLeft 16 ^^^ b2 →
    b1 = a1 →
    c0 = BitVec.ofNat 64 (b0.toNat + b3.toNat) →
    c3 = b3.rotateLeft 21 ^^^ c0 →
    d2 = BitVec.ofNat 64 (b2.toNat + b1.toNat) →
    d1 = b1.rotateLeft 17 ^^^ d2 →
      sipRound l = { v0 := c0, v1 := d1, v2 := d2.rotateLeft 32, v3 := c3 }

/-- Derived (R106, which the spec derives from R105): one round is two half-rounds, lines A and B from the round's
input, then lines C and D from what A and B gave. -/
def Obligations.RoundIsTwoHalfRounds : Prop :=
  ∀ l : Lanes, sipRound l = halfRoundCD (halfRoundAB l)

/-- R108. Compression of one word: `v3 ^= m`, two rounds, `v0 ^= m`, with the corner case and the worked example. -/
def Obligations.CompressionRule : Prop :=
  (∀ (l : Lanes) (m : Word),
    let r := sipRound (sipRound { l with v3 := l.v3 ^^^ m })
    compress l m = { r with v0 := r.v0 ^^^ m }) ∧
  (∀ l : Lanes, compress l 0#64 = sipRound (sipRound l)) ∧
  compress (initLanes 0x0f0e0d0c0b0a09080706050403020100#128) 0x0706050403020100#64 =
    { v0 := 0x4a017198de0a59e0#64, v1 := 0x0d52f6f62a4f59a4#64, v2 := 0x634cb3577b01fd3d#64
      v3 := 0xa5224d6f55c7d9c8#64 }

/-! ### The accumulator (spec/42_append.md) -/

/-- Derived (R131 to R134, with R33): where `pending` holds the bytes `q` that are counted but not yet compressed,
`Absorb(bs)` compresses the complete little-endian words of the stream `q ++ bs`, each once and in order, leaves the
remaining bytes in `pending`, and adds `|bs|` to the count. -/
def Obligations.AbsorbCutsTheStream : Prop :=
  ∀ (m : Message) (q bs : List Byte), q.length = m.total.toNat % 8 → m.pending = le64 q →
    absorb m bs =
      { lanes := (streamWords (q ++ bs)).foldl compress m.lanes
        pending := le64 (streamTail (q ++ bs))
        total := m.total + BitVec.ofNat 64 bs.length }

/-- Derived (R136, which the spec derives from R131 to R134 and R33): absorbing `A` and then `B` leaves what absorbing
`A ++ B` leaves, and so does any split of a message into chunks, wherever the accumulator's invariant of R33 holds. -/
def Obligations.StreamingEquivalence : Prop :=
  ∀ m : Message, m.Aligned →
    (∀ a b : List Byte, absorb (absorb m a) b = absorb m (a ++ b)) ∧
    (∀ chunks : List (List Byte), chunks.foldl absorb m = absorb m chunks.flatten)

/-- R135. The empty append leaves every state item as it was, and still faults in IDLE and DONE. -/
def Obligations.EmptyAppend : Prop :=
  (∀ m : Message, absorb m [] = m) ∧
  (∀ (s : State) (e : Engine), s.engineAt s.target = some e → e.err = .none →
    (∀ m, e.phase = .absorb → e.message = some m → exec (.append []) s = .next s) ∧
    (e.phase = .idle → exec (.append []) s = .next (s.setEngine s.target { e with err := .notInit })) ∧
    (e.phase = .done → exec (.append []) s = .next (s.setEngine s.target { e with err := .useAfterFinal })))

/-- Derived (R137, which the spec derives from R131 to R134): `Absorb` keeps the accumulator's invariant of R33. -/
def Obligations.AbsorbKeepsTheAccumulatorInvariant : Prop :=
  ∀ (m : Message) (bs : List Byte), m.Aligned → (absorb m bs).Aligned

/-- Derived (R138 and the table of R211): an APPEND of at most 8 bytes compresses no word while `r + n < 8`, and exactly
one, the stream's next 8 bytes, when `r + n >= 8`; it runs 0 and 2 SipRounds in the two cases. -/
def Obligations.WorkPerAppend : Prop :=
  ∀ (m : Message) (q bs : List Byte), q.length = m.total.toNat % 8 → m.pending = le64 q → bs.length ≤ 8 →
    if q.length + bs.length < 8 then (absorb m bs).lanes = m.lanes ∧ commandRounds m.total (.append bs) = 0
    else (absorb m bs).lanes = compress m.lanes (le64 ((q ++ bs).take 8)) ∧ commandRounds m.total (.append bs) = 2

/-- Derived (R34): `Absorb` adds the number of bytes to the count modulo 2^64, and the wrap changes neither the count of
pending bytes nor the length byte. -/
def Obligations.CountOfBytes : Prop :=
  ∀ (m : Message) (bs : List Byte),
    (absorb m bs).total.toNat = (m.total.toNat + bs.length) % 2 ^ 64 ∧
    (absorb m bs).total.toNat % 8 = (m.total.toNat + bs.length) % 8 ∧
    (absorb m bs).total.toNat % 256 = (m.total.toNat + bs.length) % 256

/-! ### Finalization (spec/43_finalize.md) -/

/-- Derived (R151, with the non-overlap the spec derives from R33). The final block is `pending` with the count's low
8 bits in bits 63:56, and the two parts never overlap while the accumulator's invariant holds. -/
def Obligations.FinalBlock : Prop :=
  ∀ m : Message,
    finalBlock m = m.pending ||| BitVec.ofNat 64 (m.total.toNat * 2 ^ 56) ∧
    finalBlock m = m.pending ||| ((m.total.extractLsb' 0 8).setWidth 64 <<< 56) ∧
    (m.Aligned → m.pending.extractLsb' 56 8 = 0#8 ∧ (finalBlock m).extractLsb' 56 8 = m.total.extractLsb' 0 8 ∧
      (finalBlock m).extractLsb' 0 56 = m.pending.extractLsb' 0 56)

/-- R152. The finalization sequence, and the value it returns. -/
def Obligations.FinalizationSequence : Prop :=
  ∀ m : Message,
    let b := m.pending ||| (m.total <<< 56)
    let l := compress m.lanes b
    let f := sipRound (sipRound (sipRound (sipRound { l with v2 := l.v2 ^^^ 0xff#64 })))
    finalizeLanes m = f ∧ finalize m = f.v0 ^^^ f.v1 ^^^ f.v2 ^^^ f.v3

/-- Derived (R153, which the spec derives from R152): the controller's ordered steps F0 to F6 give the final lanes and
the result, in exactly 6 SipRounds whatever the message. -/
def Obligations.FinalizationController : Prop :=
  ∀ m : Message, runController m =
    { lanes := finalizeLanes m, block := finalBlock m, result := finalize m
      roundsDone := commandRounds m.total .final } ∧ commandRounds m.total .final = 6

/-- R154. Only the low 8 bits of the count reach the result. -/
def Obligations.OnlyTheLengthByteCounts : Prop :=
  ∀ m m' : Message, m.lanes = m'.lanes → m.pending = m'.pending → m.total.toNat % 256 = m'.total.toNat % 256 →
    finalBlock m = finalBlock m' ∧ finalizeLanes m = finalizeLanes m' ∧ finalize m = finalize m'

/-- R156. With a count that is a multiple of 8 only the length byte folds in; otherwise the low `t` bytes of the final
block are the last `t` bytes of the message in stream order, bytes `t..6` are 0, and byte 7 is the length byte, the
low 8 bits of the message's length. -/
def Obligations.TrailingBytesOfTheFinalBlock : Prop :=
  ∀ (seed : Din) (msg : List Byte),
    let m := absorb (initMessage seed) msg
    let t := msg.length % 8
    (t = 0 → m.pending = 0#64 ∧ finalBlock m = BitVec.ofNat 64 (msg.length % 256) <<< 56) ∧
    (t ≠ 0 → (∀ j < t, wordByte (finalBlock m) j = msg.getD (msg.length - t + j) 0#8) ∧
      (∀ j, t ≤ j → j < 7 → wordByte (finalBlock m) j = 0#8) ∧
      wordByte (finalBlock m) 7 = BitVec.ofNat 8 msg.length)

/-- Derived (R155, R37). After FINAL the lanes hold the post-finalization values and `phase` is DONE; APPEND and FINAL
then fault, and INIT runs and leaves no trace of them. -/
def Obligations.FinalConsumesTheEngine : Prop :=
  ∀ (s t : State) (e : Engine) (m : Message), s.engineAt s.target = some e → e.err = .none → e.phase = .absorb →
    e.message = some m → exec .final s = .next t →
    ∃ f, t.engineAt t.target = some f ∧ f.phase = .done ∧
      f.v0 = some (finalizeLanes m).v0 ∧ f.v1 = some (finalizeLanes m).v1 ∧
      f.v2 = some (finalizeLanes m).v2 ∧ f.v3 = some (finalizeLanes m).v3 ∧
      (∀ bs : List Byte, bs.length ≤ 8 →
        exec (.append bs) t = .next (t.setEngine t.target { f with err := .useAfterFinal })) ∧
      exec .final t = .next (t.setEngine t.target { f with err := .useAfterFinal }) ∧
      ∀ seed, exec (.init seed) t = exec (.init seed) s

/-! ### One-shot hash and appends of any length (spec/44_oneshot.md) -/

/-- Derived (R161, which the spec derives from R136): APPENDBUF, and any other cut of the bytes into pieces of 0 to 8,
has the effect of one `Absorb` of the whole buffer, where the accumulator's invariant holds; on an engine that is not
initialized or is consumed it faults as its first APPEND does, and with no byte it does nothing. -/
def Obligations.AppendBufAbsorbsTheBuffer : Prop :=
  ∀ (s : State) (e : Engine), s.engineAt s.target = some e → e.err = .none →
    (∀ m, e.phase = .absorb → e.message = some m → m.Aligned →
      (∀ msg : List Byte,
        execAll (appendBuf msg) s = .next (s.setEngine s.target (e.setMessage (absorb m msg)))) ∧
      (∀ cut : List (List Byte), (∀ p ∈ cut, p.length ≤ 8) →
        execAll (cut.map .append) s = .next (s.setEngine s.target (e.setMessage (absorb m cut.flatten))))) ∧
    (∀ msg : List Byte, msg ≠ [] →
      (e.phase = .idle → execAll (appendBuf msg) s = .next (s.setEngine s.target { e with err := .notInit })) ∧
      (e.phase = .done →
        execAll (appendBuf msg) s = .next (s.setEngine s.target { e with err := .useAfterFinal }))) ∧
    execAll (appendBuf []) s = .next s

/-- Derived (R160): the commands of HASH, issued to an instance with no fault recorded, whatever its phase, run to DONE
with `HASH_OUT` the hash of the message, one step for each command; on a faulted instance they are all ignored. -/
def Obligations.HashGivesTheOneShotHash : Prop :=
  ∀ (seed : Din) (msg : List Byte) (s : State) (k : Nat) (e : Engine) (rest : List Input),
    s.inputs = issue k (hashCommands seed msg) ++ rest → s.engineAt k = some e →
    ∃ t e', Host.Core.run core (hashCommands seed msg).length s = .next t ∧ t.inputs = rest ∧
      t.engineAt k = some e' ∧
      (e.err = .none → e'.phase = .done ∧ e'.hvalid = true ∧ e'.err = .none ∧
        e'.hashPort = some (finalize (absorb (initMessage seed) msg))) ∧
      (e.err ≠ .none → e' = e)

/-- Derived (R157, which the spec derives from R120, R131 and R152; V3): the result depends on the seed and on the
message bytes alone: neither on the cut into APPENDs, nor on what either engine held before INIT, nor on any other
instance. -/
def Obligations.HashDependsOnSeedAndMessageOnly : Prop :=
  ∀ (seed : Din) (cut cut' : List (List Byte)) (s s' : State) (e e' : Engine),
    (∀ p ∈ cut, p.length ≤ 8) → (∀ p ∈ cut', p.length ≤ 8) → cut.flatten = cut'.flatten →
    s.engineAt s.target = some e → e.err = .none → s'.engineAt s'.target = some e' → e'.err = .none →
    ∃ t t' f f', execAll (.init seed :: (cut.map .append ++ [.final])) s = .next t ∧
      execAll (.init seed :: (cut'.map .append ++ [.final])) s' = .next t' ∧
      t.engineAt s.target = some f ∧ t'.engineAt s'.target = some f' ∧
      f.hashPort ≠ none ∧ f.hashPort = f'.hashPort

/-- The bytes `0, 1, ..., n - 1`: the message `M_n` of 95_test_vectors.md. -/
def Sys2Proof.countingBytes (n : Nat) : List Byte := (List.range n).map (BitVec.ofNat 8)

/-- The seed `00 01 .. 0f` of 95_test_vectors.md. -/
def Sys2Proof.countingSeed : Din := 0x0f0e0d0c0b0a09080706050403020100#128

/-- Derived (R162 with the table V61, rows 0 to 15, and the source's own example V1): known answers. -/
def Obligations.KnownAnswers : Prop :=
  oneShot 0x66656463626139383736353433323130#128 [] = BitVec.ofNat 64 12552310112479190712 ∧
  (List.range 8).map (fun n => oneShot countingSeed (countingBytes n)) =
    [0x726fdb47dd0e0e31#64, 0x74f839c593dc67fd#64, 0x0d6c8009d9a94f5a#64, 0x85676696d7fb7e2d#64,
     0xcf2794e0277187b7#64, 0x18765564cd99a68d#64, 0xcbc9466e58fee3ce#64, 0xab0200f58b01d137#64] ∧
  (List.range 8).map (fun n => oneShot countingSeed (countingBytes (8 + n))) =
    [0x93f5f5799a932462#64, 0x9e0082df0ba9e4b0#64, 0x7a5dbbc594ddb9f3#64, 0xf4b32f46226bada7#64,
     0x751e8fbc860ee5fb#64, 0x14ea5627c0843d90#64, 0xf723ca908e7af2ee#64, 0xa129ca6149be45e5#64]

/-! ### Faults (spec/60_exceptions.md) -/

/-- R173. The checks of a command in their order: a faulted engine ignores it; an illegal word faults ILLEGAL_CMD;
APPEND and FINAL (OP 2 and 3) fault NOT_INIT in IDLE and USE_AFTER_FINAL in DONE; INIT is subject to the first two
only. -/
def Obligations.FaultPriority : Prop :=
  ∀ (s : State) (k : Nat) (c : Command) (rest : List Input) (e : Engine),
    s.inputs = .command k c :: rest → s.engineAt k = some e →
    let s' := (s.withInputs rest).aim k
    if e.err ≠ .none then step s = .next s'
    else if legal c.cmd = false then step s = .next (s'.setEngine k { e with err := .illegalCmd })
    else if (c.op = 0x2#4 ∨ c.op = 0x3#4) ∧ e.phase = .idle then
      step s = .next (s'.setEngine k { e with err := .notInit })
    else if (c.op = 0x2#4 ∨ c.op = 0x3#4) ∧ e.phase = .done then
      step s = .next (s'.setEngine k { e with err := .useAfterFinal })
    else if c.op = 0x1#4 then
      ∃ e', step s = .next (s'.setEngine k e') ∧ e'.err = .none ∧ e'.phase = .absorb
    else ∀ t e', step s = .next t → t.engineAt k = some e' → e'.err = .none

/-- R174. A fault is precise: a command that takes an engine from `err` = 0 to a code changes nothing of it but `err`,
and nothing of any other engine. -/
def Obligations.FaultsArePrecise : Prop :=
  ∀ (s t : State) (k : Nat) (c : Command) (rest : List Input) (e e' : Engine),
    s.inputs = .command k c :: rest → step s = .next t → s.engineAt k = some e → t.engineAt k = some e' →
    e.err = .none → e'.err ≠ .none →
      e' = { e with err := e'.err } ∧ ∀ j ≠ k, t.engineAt j = s.engineAt j

/-- Derived (R175): a faulted engine keeps every item of its state, the first code among them, through any run in which
no reset comes; such a state is never good; and its ports can still be read. The model's choices in it: what a read gives
stands in the record of readings (log entry 9, DESIGN CHOICE), a run may have steps with nothing to do (log entry 10,
DEDUCED from R185 and R202), and a good state is `State.Good` (log entry 16, DEDUCED from R175 and R201). -/
def Obligations.FaultedEngineStaysFaulted : Prop :=
  ∀ (s : State) (k : Nat) (e : Engine), s.engineAt k = some e → e.err ≠ .none →
    ¬ s.Good ∧
    (∀ (n : Nat) (t : State), .reset ∉ s.inputs.take n → Host.Core.run core n s = .next t →
      t.engineAt k = some e) ∧
    (∀ rest, s.inputs = .readStatus k :: rest →
      ∃ t, step s = .next t ∧ t.observed = s.observed ++ [.status k e.status]) ∧
    (∀ rest, s.inputs = .readHashOut k :: rest →
      ∃ t, step s = .next t ∧ t.observed = s.observed ++ [.hashOut k (if e.hvalid then e.hashOut else none)])

/-- Derived (R201, R200; that one reset reaches every instance is log entry 7, DEDUCED from R200, and that a step with
nothing to do clears nothing is log entry 10, DEDUCED from R185 and R202): reset is the only event that clears `err`, and
after it no engine has a code recorded. -/
def Obligations.OnlyResetClearsErr : Prop :=
  ∀ (s t : State) (k : Nat) (e e' : Engine), step s = .next t → s.engineAt k = some e → t.engineAt k = some e' →
    (e.err ≠ .none → e'.err = .none → ∃ rest, s.inputs = .reset :: rest) ∧
    ((∃ rest, s.inputs = .reset :: rest) → e'.err = .none)

/-! ### Phase, result and ports (spec/10_state.md) -/

/-- R37. The phase table, with the faults it names, for an engine with no fault recorded that obeys its invariant. -/
def Obligations.PhaseTransitions : Prop :=
  ∀ (s : State) (k : Nat) (c : Command) (rest : List Input) (e : Engine),
    s.inputs = .command k c :: rest → s.engineAt k = some e → e.err = .none → e.Inv →
    ∃ t e', step s = .next t ∧ t.engineAt k = some e' ∧
      match decode c, e.phase with
      | .illegal _, p => e'.phase = p ∧ e'.err = .illegalCmd
      | .instr (.init _), _ => e'.phase = .absorb ∧ e'.err = .none
      | .instr (.append _), .idle => e'.phase = .idle ∧ e'.err = .notInit
      | .instr (.append _), .absorb => e'.phase = .absorb ∧ e'.err = .none
      | .instr (.append _), .done => e'.phase = .done ∧ e'.err = .useAfterFinal
      | .instr .final, .idle => e'.phase = .idle ∧ e'.err = .notInit
      | .instr .final, .absorb => e'.phase = .done ∧ e'.err = .none
      | .instr .final, .done => e'.phase = .done ∧ e'.err = .useAfterFinal

/-- Derived (R47, which the spec derives from R36 to R40, R174 and R175): what each command leaves in STATUS, for an
engine that obeys its invariant. -/
def Obligations.StatusAfterEachCommand : Prop :=
  ∀ (s : State) (k : Nat) (c : Command) (rest : List Input) (e : Engine),
    s.inputs = .command k c :: rest → s.engineAt k = some e → e.Inv →
    ∃ t e', step s = .next t ∧ t.engineAt k = some e' ∧
      if e.err ≠ .none then e'.status = e.status
      else match decode c, e.phase with
        | .instr (.init _), _ => e'.status = 0x00000001#32
        | .instr (.append _), .absorb => e'.status = 0x00000001#32
        | .instr .final, .absorb => e'.status = 0x00000006#32
        | .instr _, .idle => e'.status = 0x00000020#32
        | .instr _, .done => e'.status = 0x00000036#32
        | .illegal _, .idle => e'.status = 0x00000010#32
        | .illegal _, .absorb => e'.status = 0x00000011#32
        | .illegal _, .done => e'.status = 0x00000016#32

/-- Derived (R38): of all steps only a FINAL to the instance gives `hash_out` a value it did not hold, the fold of the
lanes it leaves; a performed FINAL always writes it so; a performed INIT leaves it without a value, and so does reset. The
model's choices in it: one reset reaches every instance (log entry 7, DEDUCED from R200), and a step with nothing to do
changes no engine (log entry 10, DEDUCED from R185 and R202). -/
def Obligations.WritersOfHashOut : Prop :=
  (∀ (s t : State) (k : Nat) (e e' : Engine), step s = .next t → s.engineAt k = some e → t.engineAt k = some e' →
    e'.hashOut ≠ e.hashOut →
    ∃ rest,
      (∃ din, s.inputs = .command k { cmd := 0x0003#16, din := din } :: rest) ∨
      (∃ din, s.inputs = .command k { cmd := 0x0001#16, din := din } :: rest ∧ e'.hashOut = none) ∨
      (s.inputs = .reset :: rest ∧ e'.hashOut = none)) ∧
  (∀ (s t : State) (e e' : Engine), s.engineAt s.target = some e → e.err = .none → t.engineAt s.target = some e' →
    (∀ seed, exec (.init seed) s = .next t → e'.hashOut = none) ∧
    (e.phase = .absorb → exec .final s = .next t →
      ∃ l : Lanes, e'.v0 = some l.v0 ∧ e'.v1 = some l.v1 ∧ e'.v2 = some l.v2 ∧ e'.v3 = some l.v3 ∧
        e'.hashOut = some (l.v0 ^^^ l.v1 ^^^ l.v2 ^^^ l.v3))) ∧
  Engine.reset.hashOut = none

/-- Derived (R43; the record of readings is the model's choice, log entry 9): the fields of STATUS, the hardwired zeros,
its value at reset, and that reading it gives that value and changes no engine, at any time. -/
def Obligations.StatusLayout : Prop :=
  (∀ e : Engine,
    e.status.extractLsb' 0 2 = (match e.phase with | .idle => 0#2 | .absorb => 1#2 | .done => 2#2) ∧
    e.status.getLsbD 2 = e.hvalid ∧
    e.status.getLsbD 3 = false ∧
    e.status.extractLsb' 4 4 =
      (match e.err with | .none => 0#4 | .illegalCmd => 1#4 | .notInit => 2#4 | .useAfterFinal => 3#4) ∧
    e.status.extractLsb' 8 24 = 0#24) ∧
  Engine.reset.status = 0x00000000#32 ∧
  (∀ (s : State) (k : Nat) (rest : List Input) (e : Engine), s.engineAt k = some e → s.inputs = .readStatus k :: rest →
    step s = .next { s with inputs := rest, observed := s.observed ++ [.status k e.status] })

/-- Derived (R44, R71 and D22; the record of readings is the model's choice, log entry 9): reads have no side effect.
A read of a port changes no engine, no count and no target, and two reads with no command between them give the same
value. -/
def Obligations.ReadsHaveNoSideEffect : Prop :=
  ∀ (s : State) (k : Nat) (rest : List Input) (e : Engine), s.engineAt k = some e →
    (s.inputs = .readStatus k :: .readStatus k :: rest →
      ∃ r t, Host.Core.run core 2 s = .next t ∧ t = { s with inputs := rest, observed := s.observed ++ [r, r] }) ∧
    (s.inputs = .readHashOut k :: .readHashOut k :: rest →
      ∃ r t, Host.Core.run core 2 s = .next t ∧ t = { s with inputs := rest, observed := s.observed ++ [r, r] })

/-- R49. A command to one instance changes no other, and what it does to its own depends on that engine alone: two
platforms with the same engine at that instance have the same engine there afterwards, whatever the others hold. -/
def Obligations.InstancesAreIndependent : Prop :=
  (∀ (s t : State) (k : Nat) (c : Command) (rest : List Input), s.inputs = .command k c :: rest →
    step s = .next t → ∀ j ≠ k, t.engineAt j = s.engineAt j) ∧
  (∀ (s s' t : State) (k : Nat) (c : Command) (rest rest' : List Input),
    s.inputs = .command k c :: rest → s'.inputs = .command k c :: rest' → s.engineAt k = s'.engineAt k →
    step s = .next t → ∃ t', step s' = .next t' ∧ t'.engineAt k = t.engineAt k)

/-! ### Reset and the invariant -/

/-- Derived (R200; the model's choices are log entries 3, the input list, 5, any number of engines, and 7, that one
reset reaches every instance, DEDUCED from R200): after a reset every engine holds the reset values, and so does every
engine of a platform of any number of instances right after reset. -/
def Obligations.ResetState : Prop :=
  (∀ (s : State) (rest : List Input), s.inputs = .reset :: rest →
    ∃ t, step s = .next t ∧ t.engines.length = s.engines.length ∧ t.inputs = rest ∧
      ∀ k e, t.engineAt k = some e →
        e = { v0 := none, v1 := none, v2 := none, v3 := none, pending := none, totalBytes := none
              phase := .idle, hashOut := none, hvalid := false, err := .none }) ∧
  (∀ (n k : Nat) (e : Engine), (State.resetOf n).engineAt k = some e →
    e = { v0 := none, v1 := none, v2 := none, v3 := none, pending := none, totalBytes := none
          phase := .idle, hashOut := none, hvalid := false, err := .none } ∧ e.status = 0#32)

/-- Derived (R36, R38, R39, R200, R10; any number of engines is log entry 5): a platform of any number of engines, at
least one, meets the invariant right after reset. -/
def Obligations.ResetMeetsTheInvariant : Prop :=
  ∀ n : Nat, 1 ≤ n → (State.resetOf n).Inv

/-- Derived (R33, R36 to R39, R137, R200, R203): every step keeps the invariant: in IDLE no register holds a value; in
ABSORB all do, the accumulator is aligned with the count and there is no result; in DONE the result is there and is
the fold of the lanes. Among the steps are reset, of every instance at once (log entry 7, DEDUCED from R200), and the
step with nothing to do (log entry 10, DEDUCED from R185 and R202). -/
def Obligations.EveryStepKeepsTheInvariant : Prop :=
  ∀ s t : State, s.Inv → step s = .next t → t.Inv

/-- Derived (R14, R200's "no rule reads them before INIT writes them", R15): in a state that meets the invariant no
step reads a register that holds no value, and a step whose interaction addresses an instance the platform has always
answers a next state. The model's choices in it: the check of the six registers together (log entry 2, DESIGN CHOICE),
the stop for an absent instance, which the condition rules out (log entry 6, DESIGN CHOICE), and that the step with no
interaction answers a next state (log entry 10, DEDUCED from R185 and R202). -/
def Obligations.EveryAddressedStepAnswers : Prop :=
  ∀ s : State, s.Inv →
    step s ≠ .fault .noValue ∧ ((∀ x ∈ s.inputs.head?, x.Addresses s) → ∃ t, step s = .next t)
end

