-- ==== Sys2Proof/Laws/Datapath.lean ====
section
/-!
SUPPORT. One lemma for each datapath function saying what it does: the word reader byte by byte, the drain, the bulk words
and the pieces of a stream.
-/

namespace Sys2Proof.Machine

section WordReader

theorem le64From_succ (j : Nat) (bs : List Byte) : le64From (j + 1) bs = le64From j bs <<< 8 := by
  induction bs generalizing j with
  | nil => simp [le64From]
  | cons c cs ih =>
    have hsplit : c.setWidth 64 <<< (8 * (j + 1)) = (c.setWidth 64 <<< (8 * j)) <<< 8 := by
      rw [← BitVec.shiftLeft_add]; rfl
    simp only [le64From, ih, hsplit]
    apply BitVec.eq_of_toNat_eq
    simp [BitVec.toNat_shiftLeft, Nat.shiftLeft_eq]

/-- The word reader one byte at a time: the first byte is the least significant. -/
theorem le64_cons (c : Byte) (cs : List Byte) : le64 (c :: cs) = c.setWidth 64 + le64 cs <<< 8 := by
  simp [le64, le64From, le64From_succ]

@[simp] theorem le64_nil : le64 [] = 0#64 := rfl

/-- At most 8 bytes read little-endian fill exactly their own positions. -/
theorem le64_toNat (bs : List Byte) (h : bs.length ≤ 8) :
    (le64 bs).toNat = bs.foldr (fun c acc => c.toNat + 256 * acc) 0 ∧ (le64 bs).toNat < 2 ^ (8 * bs.length) := by
  induction bs with
  | nil => simp
  | cons c cs ih =>
    have hl : cs.length + 1 ≤ 8 := h
    obtain ⟨hv, hb⟩ := ih (by omega)
    have hc : c.toNat < 256 := c.isLt
    have hpow : 2 ^ (8 * (cs.length + 1)) = 256 * 2 ^ (8 * cs.length) := by
      rw [Nat.mul_add, pow_add]; ring
    have hle : 2 ^ (8 * (cs.length + 1)) ≤ 2 ^ 64 := Nat.pow_le_pow_right (by norm_num) (by omega)
    have hnat : (le64 (c :: cs)).toNat = c.toNat + 256 * (le64 cs).toNat := by
      rw [le64_cons, BitVec.toNat_add, BitVec.toNat_shiftLeft, BitVec.toNat_setWidth, Nat.shiftLeft_eq]
      omega
    refine ⟨by rw [hnat, hv]; rfl, ?_⟩
    rw [hnat, List.length_cons, hpow]
    omega

/-- One more byte goes in at the next position: what the drain does with it is what the word reader does. -/
theorem le64_snoc (bs : List Byte) (b : Byte) (h : bs.length < 8) :
    le64 (bs ++ [b]) = le64 bs ||| b.setWidth 64 <<< (8 * bs.length) := by
  obtain ⟨-, hlt⟩ := le64_toNat bs (by omega)
  have hsum : le64 (bs ++ [b]) = le64 bs + b.setWidth 64 <<< (8 * bs.length) := by
    clear hlt
    induction bs with
    | nil => simp [le64_cons]
    | cons c cs ih =>
      have hl : cs.length + 1 < 8 := h
      rw [List.cons_append, le64_cons, le64_cons, ih (by omega), add_assoc]
      congr 1
      have hsplit : b.setWidth 64 <<< (8 * (cs.length + 1)) = (b.setWidth 64 <<< (8 * cs.length)) <<< 8 := by
        rw [← BitVec.shiftLeft_add]; rfl
      rw [List.length_cons, hsplit]
      apply BitVec.eq_of_toNat_eq
      simp [BitVec.toNat_shiftLeft, Nat.shiftLeft_eq]
  rw [hsum]
  apply BitVec.add_eq_or_of_and_eq_zero
  apply BitVec.eq_of_getElem_eq
  intro i hi
  simp only [BitVec.getElem_and, BitVec.getElem_shiftLeft, BitVec.getElem_zero]
  by_cases hi8 : i < 8 * bs.length
  · simp [hi8]
  · have : (le64 bs)[i] = false := by
      rw [← BitVec.getLsbD_eq_getElem, BitVec.getLsbD, Nat.testBit_eq_false_of_lt]
      exact lt_of_lt_of_le hlt (Nat.pow_le_pow_right (by norm_num) (by omega))
    simp [this]

end WordReader

section Accumulator

/-- The drain of an accumulator that holds the bytes `q`: it takes as many bytes as complete a word, and holds them all. -/
theorem drain_le64 (q bs : List Byte) (h : q.length < 8) :
    drain (le64 q) q.length bs =
      (le64 (q ++ bs.take (8 - q.length)), q.length + min bs.length (8 - q.length), bs.drop (8 - q.length)) := by
  induction bs generalizing q with
  | nil => simp [drain]
  | cons b bs ih =>
    rw [drain, if_pos h, ← le64_snoc q b h]
    by_cases h8 : q.length + 1 < 8
    · have := ih (q ++ [b]) (by simpa using h8)
      rw [List.length_append, List.length_singleton] at this
      rw [this]
      have hs : 8 - q.length = 8 - (q.length + 1) + 1 := by omega
      rw [hs]
      simp only [List.take_succ_cons, List.drop_succ_cons, List.append_assoc, List.singleton_append,
        List.length_cons, Nat.add_min_add_right]
      congr 2
      omega
    · have hq : q.length = 7 := by omega
      rw [hq]
      cases bs <;> simp [drain]

theorem bulk_lt (l : Lanes) (bs : List Byte) (h : bs.length < 8) : bulk l bs = (l, bs) := by
  unfold bulk
  split
  · simp at h
    omega
  · rfl

theorem bulk_ge (l : Lanes) (bs : List Byte) (h : 8 ≤ bs.length) :
    bulk l bs = bulk (compress l (le64 (bs.take 8))) (bs.drop 8) := by
  match bs, h with
  | b0 :: b1 :: b2 :: b3 :: b4 :: b5 :: b6 :: b7 :: rest, _ => simp [bulk]

/-- How many bytes the accumulator holds after the drain, and what it did not take, whatever it held. -/
theorem drain_count (p : Word) (r : Nat) (bs : List Byte) (h : r ≤ 8) :
    (drain p r bs).2.1 = min 8 (r + bs.length) ∧ (drain p r bs).2.2 = bs.drop (8 - r) := by
  induction bs generalizing p r with
  | nil => simp [drain, h]
  | cons b bs ih =>
    rw [drain]
    split
    · obtain ⟨hcount, hrest⟩ := ih (p ||| b.setWidth 64 <<< (8 * r)) (r + 1) (by omega)
      have hs : 8 - r = 8 - (r + 1) + 1 := by omega
      rw [hcount, hrest, hs, List.drop_succ_cons, List.length_cons]
      exact ⟨by omega, rfl⟩
    · have hr : r = 8 := by omega
      simp [hr]

/-- `Absorb` moves the count by the number of bytes on every path. -/
theorem absorb_total (m : Message) (bs : List Byte) : (absorb m bs).total = m.total + BitVec.ofNat 64 bs.length := by
  unfold absorb
  by_cases hr : m.total.toNat % 8 = 0
  · simp [hr, absorbAligned]
  · by_cases h8 : (drain m.pending (m.total.toNat % 8) bs).2.1 < 8 <;> simp [hr, h8, absorbAligned]

theorem pieces_ge (bs : List Byte) (h : 8 ≤ bs.length) : pieces bs = bs.take 8 :: pieces (bs.drop 8) := by
  match bs, h with
  | b0 :: b1 :: b2 :: b3 :: b4 :: b5 :: b6 :: b7 :: rest, _ => simp [pieces]

theorem pieces_lt (bs : List Byte) (h : bs.length < 8) : pieces bs = if bs = [] then [] else [bs] := by
  unfold pieces
  split
  · simp at h
    omega
  · rfl
  · next hne => simpa using hne

end Accumulator

end Sys2Proof.Machine
end

