-- ==== Sys2Proof/Laws/State.lean ====
section
/-!
SUPPORT. One lemma for each field of the state under each named update, true by `rfl`.
-/

namespace Sys2Proof.Machine

section StateFields

variable (s : State) (k : Nat) (e : Engine) (xs : List Input) (r : Reading)

@[simp] theorem State.setEngine_target : (s.setEngine k e).target = s.target := rfl
@[simp] theorem State.setEngine_inputs : (s.setEngine k e).inputs = s.inputs := rfl
@[simp] theorem State.setEngine_observed : (s.setEngine k e).observed = s.observed := rfl

@[simp] theorem State.aim_target : (s.aim k).target = k := rfl
@[simp] theorem State.aim_inputs : (s.aim k).inputs = s.inputs := rfl
@[simp] theorem State.aim_observed : (s.aim k).observed = s.observed := rfl

@[simp] theorem State.withInputs_engines : (s.withInputs xs).engines = s.engines := rfl
@[simp] theorem State.withInputs_target : (s.withInputs xs).target = s.target := rfl
@[simp] theorem State.withInputs_inputs : (s.withInputs xs).inputs = xs := rfl
@[simp] theorem State.withInputs_observed : (s.withInputs xs).observed = s.observed := rfl

@[simp] theorem State.observe_engines : (s.observe r).engines = s.engines := rfl
@[simp] theorem State.observe_target : (s.observe r).target = s.target := rfl
@[simp] theorem State.observe_inputs : (s.observe r).inputs = s.inputs := rfl
@[simp] theorem State.observe_observed : (s.observe r).observed = s.observed ++ [r] := rfl

@[simp] theorem State.resetAll_engines :
    s.resetAll.engines = s.engines.map fun x => { x with engine := Engine.reset } := rfl
@[simp] theorem State.resetAll_target : s.resetAll.target = s.target := rfl
@[simp] theorem State.resetAll_inputs : s.resetAll.inputs = s.inputs := rfl
@[simp] theorem State.resetAll_observed : s.resetAll.observed = s.observed := rfl

end StateFields

section EngineFields

variable (e : Engine) (l : Lanes) (m : Message) (c : ErrCode) (seed : Din)

@[simp] theorem Engine.setLanes_v0 : (e.setLanes l).v0 = some l.v0 := rfl
@[simp] theorem Engine.setLanes_v1 : (e.setLanes l).v1 = some l.v1 := rfl
@[simp] theorem Engine.setLanes_v2 : (e.setLanes l).v2 = some l.v2 := rfl
@[simp] theorem Engine.setLanes_v3 : (e.setLanes l).v3 = some l.v3 := rfl
@[simp] theorem Engine.setLanes_pending : (e.setLanes l).pending = e.pending := rfl
@[simp] theorem Engine.setLanes_totalBytes : (e.setLanes l).totalBytes = e.totalBytes := rfl
@[simp] theorem Engine.setLanes_phase : (e.setLanes l).phase = e.phase := rfl
@[simp] theorem Engine.setLanes_hashOut : (e.setLanes l).hashOut = e.hashOut := rfl
@[simp] theorem Engine.setLanes_hvalid : (e.setLanes l).hvalid = e.hvalid := rfl
@[simp] theorem Engine.setLanes_err : (e.setLanes l).err = e.err := rfl

@[simp] theorem Engine.setMessage_v0 : (e.setMessage m).v0 = some m.lanes.v0 := rfl
@[simp] theorem Engine.setMessage_v1 : (e.setMessage m).v1 = some m.lanes.v1 := rfl
@[simp] theorem Engine.setMessage_v2 : (e.setMessage m).v2 = some m.lanes.v2 := rfl
@[simp] theorem Engine.setMessage_v3 : (e.setMessage m).v3 = some m.lanes.v3 := rfl
@[simp] theorem Engine.setMessage_pending : (e.setMessage m).pending = some m.pending := rfl
@[simp] theorem Engine.setMessage_totalBytes : (e.setMessage m).totalBytes = some m.total := rfl
@[simp] theorem Engine.setMessage_phase : (e.setMessage m).phase = e.phase := rfl
@[simp] theorem Engine.setMessage_hashOut : (e.setMessage m).hashOut = e.hashOut := rfl
@[simp] theorem Engine.setMessage_hvalid : (e.setMessage m).hvalid = e.hvalid := rfl
@[simp] theorem Engine.setMessage_err : (e.setMessage m).err = e.err := rfl

@[simp] theorem Engine.takeFault_v0 : (e.takeFault c).v0 = e.v0 := rfl
@[simp] theorem Engine.takeFault_v1 : (e.takeFault c).v1 = e.v1 := rfl
@[simp] theorem Engine.takeFault_v2 : (e.takeFault c).v2 = e.v2 := rfl
@[simp] theorem Engine.takeFault_v3 : (e.takeFault c).v3 = e.v3 := rfl
@[simp] theorem Engine.takeFault_pending : (e.takeFault c).pending = e.pending := rfl
@[simp] theorem Engine.takeFault_totalBytes : (e.takeFault c).totalBytes = e.totalBytes := rfl
@[simp] theorem Engine.takeFault_phase : (e.takeFault c).phase = e.phase := rfl
@[simp] theorem Engine.takeFault_hashOut : (e.takeFault c).hashOut = e.hashOut := rfl
@[simp] theorem Engine.takeFault_hvalid : (e.takeFault c).hvalid = e.hvalid := rfl
@[simp] theorem Engine.takeFault_err : (e.takeFault c).err = c := rfl

@[simp] theorem Engine.start_v0 : (e.start seed).v0 = some (initLanes seed).v0 := rfl
@[simp] theorem Engine.start_v1 : (e.start seed).v1 = some (initLanes seed).v1 := rfl
@[simp] theorem Engine.start_v2 : (e.start seed).v2 = some (initLanes seed).v2 := rfl
@[simp] theorem Engine.start_v3 : (e.start seed).v3 = some (initLanes seed).v3 := rfl
@[simp] theorem Engine.start_pending : (e.start seed).pending = some 0#64 := rfl
@[simp] theorem Engine.start_totalBytes : (e.start seed).totalBytes = some 0#64 := rfl
@[simp] theorem Engine.start_phase : (e.start seed).phase = .absorb := rfl
@[simp] theorem Engine.start_hashOut : (e.start seed).hashOut = none := rfl
@[simp] theorem Engine.start_hvalid : (e.start seed).hvalid = false := rfl
@[simp] theorem Engine.start_err : (e.start seed).err = e.err := rfl

@[simp] theorem Engine.finish_v0 : (e.finish m).v0 = some (finalizeLanes m).v0 := rfl
@[simp] theorem Engine.finish_v1 : (e.finish m).v1 = some (finalizeLanes m).v1 := rfl
@[simp] theorem Engine.finish_v2 : (e.finish m).v2 = some (finalizeLanes m).v2 := rfl
@[simp] theorem Engine.finish_v3 : (e.finish m).v3 = some (finalizeLanes m).v3 := rfl
@[simp] theorem Engine.finish_pending : (e.finish m).pending = e.pending := rfl
@[simp] theorem Engine.finish_totalBytes : (e.finish m).totalBytes = e.totalBytes := rfl
@[simp] theorem Engine.finish_phase : (e.finish m).phase = .done := rfl
@[simp] theorem Engine.finish_hashOut : (e.finish m).hashOut = some (finalize m) := rfl
@[simp] theorem Engine.finish_hvalid : (e.finish m).hvalid = true := rfl
@[simp] theorem Engine.finish_err : (e.finish m).err = e.err := rfl

end EngineFields

end Sys2Proof.Machine
end

