-- ==== Sys2Proof/Laws/Ops.lean ====
section
/-!
SUPPORT. What each shared operation can do, said once.
-/

namespace Sys2Proof.Machine

open Host (Outcome)

section Engines

variable (s : State) (k j : Nat) (e e' : Engine) (xs : List Input) (r : Reading)

theorem State.engineAt_lt (h : s.engineAt k = some e) : k < s.engines.length := by
  by_contra hk
  simp [State.engineAt, List.getElem?_eq_none (Nat.le_of_not_lt hk)] at h

theorem State.engineAt_isSome (h : k < s.engines.length) : ∃ e, s.engineAt k = some e :=
  ⟨s.engines[k].engine, by simp [State.engineAt, List.getElem?_eq_getElem h]⟩

/-- The engines of the slots are those read by their instance numbers. -/
theorem State.mem_engines_iff : (∃ x ∈ s.engines, x.engine = e) ↔ ∃ k, s.engineAt k = some e := by
  simp only [State.engineAt, Option.map_eq_some_iff, List.mem_iff_getElem?]
  constructor
  · rintro ⟨x, ⟨k, hk⟩, rfl⟩
    exact ⟨k, x, hk, rfl⟩
  · rintro ⟨k, x, hk, rfl⟩
    exact ⟨x, ⟨k, hk⟩, rfl⟩

theorem State.engineAt_setEngine_self (h : s.engineAt k = some e) : (s.setEngine k e').engineAt k = some e' := by
  have hk := s.engineAt_lt k e h
  simp [State.engineAt, State.setEngine, List.getElem?_eq_getElem hk]

theorem State.engineAt_setEngine_other (h : j ≠ k) : (s.setEngine k e).engineAt j = s.engineAt j := by
  simp [State.engineAt, State.setEngine, h.symm]

@[simp] theorem State.issuedAt_setEngine : (s.setEngine k e).issuedAt j = s.issuedAt j := by
  by_cases h : k = j <;> simp [State.issuedAt, State.setEngine, h, Function.comp_def]

@[simp] theorem State.engineAt_aim : (s.aim k).engineAt j = s.engineAt j := by
  by_cases h : k = j <;> simp [State.engineAt, State.aim, h, Function.comp_def]

theorem State.issuedAt_aim_self : (s.aim k).issuedAt k = (s.issuedAt k).map (· + 1) := by
  simp [State.issuedAt, State.aim, Function.comp_def]

theorem State.issuedAt_aim_other (h : j ≠ k) : (s.aim k).issuedAt j = s.issuedAt j := by
  simp [State.issuedAt, State.aim, h.symm]

@[simp] theorem State.engineAt_withInputs : (s.withInputs xs).engineAt k = s.engineAt k := rfl
@[simp] theorem State.engineAt_observe : (s.observe r).engineAt k = s.engineAt k := rfl

theorem State.engineAt_resetAll : s.resetAll.engineAt k = (s.engineAt k).map fun _ => Engine.reset := by
  simp [State.engineAt, Function.comp_def]

@[simp] theorem State.length_setEngine : (s.setEngine k e).engines.length = s.engines.length := by
  simp [State.setEngine]

@[simp] theorem State.length_aim : (s.aim k).engines.length = s.engines.length := by
  simp [State.aim]

/-- Writing back the engine that stands there changes nothing. -/
theorem State.setEngine_self (h : s.engineAt k = some e) : s.setEngine k e = s := by
  obtain ⟨x, hx, rfl⟩ := Option.map_eq_some_iff.1 h
  have hmod : s.engines.modify k (fun y => { y with engine := x.engine }) = s.engines := by
    apply List.ext_getElem?
    intro i
    by_cases hi : k = i
    · subst hi
      simp [hx]
    · simp [hi]
  simp [State.setEngine, hmod]

theorem State.setEngine_setEngine : (s.setEngine k e).setEngine k e' = s.setEngine k e' := by
  have hmod : (s.engines.modify k fun x => { x with engine := e }).modify k (fun x => { x with engine := e' }) =
      s.engines.modify k fun x => { x with engine := e' } := by
    apply List.ext_getElem?
    intro i
    by_cases h : k = i <;> simp [h, Function.comp_def]
  simp [State.setEngine, hmod]

end Engines

section Messages

variable (e : Engine) (m : Message)

theorem Engine.message_eq_some_iff :
    e.message = some m ↔ e.v0 = some m.lanes.v0 ∧ e.v1 = some m.lanes.v1 ∧ e.v2 = some m.lanes.v2 ∧
      e.v3 = some m.lanes.v3 ∧ e.pending = some m.pending ∧ e.totalBytes = some m.total := by
  obtain ⟨⟨w0, w1, w2, w3⟩, p, t⟩ := m
  unfold Engine.message
  split
  · simp_all [and_assoc]
  · rename_i h
    simp only [reduceCtorEq, false_iff]
    rintro ⟨h0, h1, h2, h3, hp, ht⟩
    exact h _ _ _ _ _ _ h0 h1 h2 h3 hp ht

@[simp] theorem Engine.message_setMessage : (e.setMessage m).message = some m := rfl

theorem Engine.setMessage_self (h : e.message = some m) : e.setMessage m = e := by
  obtain ⟨h0, h1, h2, h3, hp, ht⟩ := (e.message_eq_some_iff m).1 h
  cases e
  simp_all [Engine.setMessage, Engine.setLanes]

@[simp] theorem Engine.setMessage_setMessage (m' : Message) :
    (e.setMessage m).setMessage m' = e.setMessage m' := rfl

end Messages

section Checks

variable (e e' : Engine) (isLegal usesMessage : Bool) (act : Engine → Outcome Engine Fault Refusal)

theorem Engine.check_eq_accepted_iff :
    e.check isLegal usesMessage = .accepted ↔
      e.err = .none ∧ isLegal = true ∧ (usesMessage = true → e.phase = .absorb) := by
  cases h : e.err <;> cases isLegal <;> cases usesMessage <;> cases hp : e.phase <;> simp [Engine.check, h, hp]

theorem Engine.check_eq_ignored_iff : e.check isLegal usesMessage = .ignored ↔ e.err ≠ .none := by
  cases h : e.err <;> cases isLegal <;> cases usesMessage <;> cases hp : e.phase <;> simp [Engine.check, h, hp]

/-- A command that faults finds `err` = 0 and gives one of the three codes. -/
theorem Engine.check_eq_faults (c : ErrCode) (h : e.check isLegal usesMessage = .faults c) :
    e.err = .none ∧ c ≠ .none := by
  cases he : e.err <;> cases isLegal <;> cases usesMessage <;> cases hp : e.phase <;>
    simp [Engine.check, he, hp] at h <;> subst h <;> simp

/-- All that a command can do to one engine. -/
theorem Engine.perform_cases (h : Engine.perform isLegal usesMessage act e = .next e') :
    (e.err ≠ .none ∧ e' = e) ∨ (e.err = .none ∧ ∃ c, c ≠ .none ∧ e' = e.takeFault c) ∨
      (e.err = .none ∧ isLegal = true ∧ (usesMessage = true → e.phase = .absorb) ∧ act e = .next e') := by
  unfold Engine.perform at h
  split at h
  · next hc => exact .inl ⟨(e.check_eq_ignored_iff _ _).1 hc, by simpa using h.symm⟩
  · next c hc =>
    obtain ⟨he, hne⟩ := e.check_eq_faults _ _ c hc
    exact .inr (.inl ⟨he, c, hne, by simpa using h.symm⟩)
  · next hc =>
    obtain ⟨he, hl, hp⟩ := (e.check_eq_accepted_iff _ _).1 hc
    exact .inr (.inr ⟨he, hl, hp, h⟩)

theorem Engine.onMessage_eq_next_iff (f : Message → Engine) :
    e.onMessage f = .next e' ↔ ∃ m, e.message = some m ∧ f m = e' := by
  unfold Engine.onMessage
  cases e.message <;> simp

end Checks

section Target

variable (s t : State) (act : Engine → Outcome Engine Fault Refusal)

/-- An action on the addressed engine answers a next state exactly when it answers one for that engine, and then only
that engine changes. -/
theorem State.onTarget_eq_next_iff :
    s.onTarget act = .next t ↔
      ∃ e e', s.engineAt s.target = some e ∧ act e = .next e' ∧ t = s.setEngine s.target e' := by
  unfold State.onTarget
  cases s.engineAt s.target with
  | none => simp
  | some e =>
    cases h : act e <;> simp [h, eq_comm]

theorem State.onTarget_of (e e' : Engine) (he : s.engineAt s.target = some e) (h : act e = .next e') :
    s.onTarget act = .next (s.setEngine s.target e') :=
  (s.onTarget_eq_next_iff _ act).2 ⟨e, e', he, h, rfl⟩

end Target

end Sys2Proof.Machine
end

