-- ==== Sys2Proof/Laws/PerInstr.lean ====
section
/-!
SUPPORT. The family of facts the host splits by constructor: a well-formed command is encoded by a legal command word
(spec/30_encoding.md R87, R90).
-/

namespace Sys2Proof.Laws

/-- The word that encodes a well-formed command is legal. -/
def EncodeLegal.Statement (i : Instr) : Prop := i.wellFormed = true → legal (encode i).cmd = true

theorem EncodeLegal.init (seed : Din) : EncodeLegal.Statement (.init seed) := fun _ =>
  show legal 0x0001#16 = true by decide

theorem EncodeLegal.append (bs : List Byte) : EncodeLegal.Statement (.append bs) := fun h => by
  have hl : bs.length ≤ 8 := of_decide_eq_true h
  have hall : ∀ n ≤ 8, legal (0x0002#16 ||| (BitVec.ofNat 16 n <<< 4)) = true := by decide
  exact hall _ hl

theorem EncodeLegal.final : EncodeLegal.Statement .final := fun _ => by
  decide

end Sys2Proof.Laws
end

