-- ==== Sys2Proof/Laws/Step.lean ====
section
/-!
SUPPORT. What a command, an interaction of the host and a step can do, said once: later proofs take one case of these
instead of unfolding the step.
-/

namespace Sys2Proof.Machine

open Host (Outcome)

/-- The engine part of a command's meaning. -/
def Instr.runOn : Instr → Engine → Outcome Engine Fault Refusal
  | .init seed => Engine.runInit seed
  | .append bs => Engine.runAppend bs
  | .final => Engine.runFinal

/-- Every meaning is an action on the addressed engine alone. -/
theorem exec_eq_onTarget (i : Instr) (s : State) : exec i s = s.onTarget (Instr.runOn i) := by
  cases i <;> rfl

/-- All that a legal command can do to an engine: it is ignored, it faults, or it has its own effect. -/
theorem runOn_cases (i : Instr) (e e' : Engine) (h : Instr.runOn i e = .next e') :
    (e.err ≠ .none ∧ e' = e) ∨
    (e.err = .none ∧ ∃ c, c ≠ .none ∧ e' = e.takeFault c) ∨
    (e.err = .none ∧ ∃ seed, i = .init seed ∧ e' = e.start seed) ∨
    (e.err = .none ∧ e.phase = .absorb ∧ ∃ m, e.message = some m ∧
      ((∃ bs, i = .append bs ∧ bs.length ≤ 8 ∧ e' = e.setMessage (absorb m bs)) ∨ (i = .final ∧ e' = e.finish m))) := by
  cases i with
  | init seed =>
    obtain h | h | ⟨he, -, -, h⟩ := Engine.perform_cases _ _ _ _ (fun x => .next (x.start seed)) h
    · exact .inl h
    · exact .inr (.inl h)
    · exact .inr (.inr (.inl ⟨he, seed, rfl, by simpa using h.symm⟩))
  | append bs =>
    obtain h | h | ⟨he, hl, hp, h⟩ := Engine.perform_cases _ _ _ _
      (fun x => x.onMessage fun m => x.setMessage (absorb m bs)) h
    · exact .inl h
    · exact .inr (.inl h)
    · obtain ⟨m, hm, h⟩ := (Engine.onMessage_eq_next_iff _ _ _).1 h
      have hl : bs.length ≤ 8 := of_decide_eq_true hl
      exact .inr (.inr (.inr ⟨he, hp rfl, m, hm, .inl ⟨bs, rfl, hl, h.symm⟩⟩))
  | final =>
    obtain h | h | ⟨he, -, hp, h⟩ := Engine.perform_cases _ _ _ _ (fun x => x.onMessage fun m => x.finish m) h
    · exact .inl h
    · exact .inr (.inl h)
    · obtain ⟨m, hm, h⟩ := (Engine.onMessage_eq_next_iff _ _ _).1 h
      exact .inr (.inr (.inr ⟨he, hp rfl, m, hm, .inr ⟨rfl, h.symm⟩⟩))

/-- All that an illegal command word can do to an engine: it is ignored, or it faults ILLEGAL_CMD. -/
theorem illegal_cases (e e' : Engine) (h : Engine.perform false false .next e = .next e') :
    (e.err ≠ .none ∧ e' = e) ∨ (e.err = .none ∧ e' = e.takeFault .illegalCmd) := by
  cases he : e.err <;> simp [Engine.perform, Engine.check, he] at h <;> simp [← h]

/-- A command to instance `k` that answers a next state: its count advances, and its engine alone changes, as the engine
part of the decoded instruction says. -/
theorem performCommand_cases (k : Nat) (c : Command) (s t : State) (h : performCommand k c s = .next t) :
    ∃ e e', s.engineAt k = some e ∧ t = (s.aim k).setEngine k e' ∧
      ((∃ i, decode c = .instr i ∧ Instr.runOn i e = .next e') ∨
       (∃ why, decode c = .illegal why ∧ Engine.perform false false .next e = .next e')) := by
  unfold performCommand at h
  split at h
  · next i hd =>
    rw [exec_eq_onTarget] at h
    obtain ⟨e, e', he, ha, ht⟩ := (State.onTarget_eq_next_iff _ _ _).1 h
    exact ⟨e, e', by simpa using he, ht, .inl ⟨i, hd, ha⟩⟩
  · next why hd =>
    obtain ⟨e, e', he, ha, ht⟩ := (State.onTarget_eq_next_iff _ _ _).1 h
    exact ⟨e, e', by simpa using he, ht, .inr ⟨why, hd, ha⟩⟩

theorem readPort_eq_next_iff (k : Nat) (f : Engine → Reading) (s t : State) :
    readPort k f s = .next t ↔ ∃ e, s.engineAt k = some e ∧ t = s.observe (f e) := by
  unfold readPort
  cases s.engineAt k <;> simp [eq_comm]

/-- All that a step can do. -/
theorem step_cases (s t : State) (h : step s = .next t) :
    (s.inputs = [] ∧ t = s) ∨
    (∃ k c rest, s.inputs = .command k c :: rest ∧ performCommand k c (s.withInputs rest) = .next t) ∨
    (∃ k rest e, s.inputs = .readStatus k :: rest ∧ s.engineAt k = some e ∧
      t = (s.withInputs rest).observe (.status k e.status)) ∨
    (∃ k rest e, s.inputs = .readHashOut k :: rest ∧ s.engineAt k = some e ∧
      t = (s.withInputs rest).observe (.hashOut k e.hashPort)) ∨
    (∃ rest, s.inputs = .reset :: rest ∧ t = (s.withInputs rest).resetAll) := by
  unfold step at h
  split at h
  · next hi => exact .inl ⟨hi, by simpa [waitForHost] using h.symm⟩
  · next x rest hi =>
    cases x with
    | command k c => exact .inr (.inl ⟨k, c, rest, hi, h⟩)
    | readStatus k =>
      obtain ⟨e, he, ht⟩ := (readPort_eq_next_iff _ _ _ _).1 h
      exact .inr (.inr (.inl ⟨k, rest, e, hi, he, ht⟩))
    | readHashOut k =>
      obtain ⟨e, he, ht⟩ := (readPort_eq_next_iff _ _ _ _).1 h
      exact .inr (.inr (.inr (.inl ⟨k, rest, e, hi, he, ht⟩)))
    | reset => exact .inr (.inr (.inr (.inr ⟨rest, hi, by simpa [takeInput] using h.symm⟩)))

end Sys2Proof.Machine
end

