-- ==== Sys2Proof/Laws/Run.lean ====
section
/-!
SUPPORT. Several steps, and several commands, one after the other: each run is a first step and a shorter run.
-/

namespace Sys2Proof.Machine

open Host (Outcome)

@[simp] theorem run_zero (s : State) : Host.Core.run core 0 s = .next s := rfl

/-- A run of any machine behind the host's interface is a first step and, from the state it answers, a shorter run; a
machine that stops at its first step stops so in the run. -/
theorem core_run_succ (M : Host.Core) (n : Nat) (s : M.State) :
    (∀ t, M.step s = .next t → M.run (n + 1) s = M.run n t) ∧
    (∀ r, M.step s = .fault r → M.run (n + 1) s = .fault r) ∧
    (∀ r, M.step s = .refused r → M.run (n + 1) s = .refused r) := by
  refine ⟨fun t h => ?_, fun r h => ?_, fun r h => ?_⟩ <;> rw [Host.Core.run.eq_2, h]

theorem run_succ_next (n : Nat) (s t : State) (h : step s = .next t) :
    Host.Core.run core (n + 1) s = Host.Core.run core n t :=
  (core_run_succ core n s).1 t h

theorem run_succ_fault (n : Nat) (s : State) (r : Fault) (h : step s = .fault r) :
    Host.Core.run core (n + 1) s = .fault r :=
  (core_run_succ core n s).2.1 r h

theorem run_succ_refused (n : Nat) (s : State) (r : Refusal) (h : step s = .refused r) :
    Host.Core.run core (n + 1) s = .refused r :=
  (core_run_succ core n s).2.2 r h

theorem execAll_cons_next (i : Instr) (is : List Instr) (s t : State) (h : exec i s = .next t) :
    execAll (i :: is) s = execAll is t := by
  simp [execAll, h]

/-- Commands in two parts: the second part runs from the state the first leaves. -/
theorem execAll_append_next (is js : List Instr) (s t : State) (h : execAll is s = .next t) :
    execAll (is ++ js) s = execAll js t := by
  induction is generalizing s with
  | nil =>
    cases h
    rfl
  | cons i is ih =>
    rw [execAll] at h
    rw [List.cons_append, execAll]
    cases hi : exec i s with
    | next u =>
      rw [hi] at h
      exact ih u h
    | fault r => simp [hi] at h
    | refused r => simp [hi] at h

/-- The step takes exactly the oldest interaction off the inputs. -/
theorem step_inputs (s t : State) (h : step s = .next t) : t.inputs = s.inputs.tail := by
  obtain ⟨hi, rfl⟩ | ⟨k, c, rest, hi, h⟩ | ⟨k, rest, e, hi, -, rfl⟩ | ⟨k, rest, e, hi, -, rfl⟩ | ⟨rest, hi, rfl⟩ :=
    step_cases s t h
  · simp [hi]
  · obtain ⟨e, e', -, rfl, -⟩ := performCommand_cases k c _ t h
    simp [hi]
  all_goals simp [hi]

end Sys2Proof.Machine
end

