-- ==== Sys2Proof/Machine/Asm.lean ====
section
/-!
DEFINITION. The command syntax as text (spec/30_encoding.md R90, R91): one command a line, `;` starts a comment. A text is
a list of characters; a line that is not of the syntax has no reading. The details R90 leaves open are DESIGN CHOICE (log
entry 13, unsafe for a claim about a text; no statement is about one).
-/

namespace Sys2Proof.Machine

/-- The pieces a line is made of: a word, a quoted text, a square bracket, a comma. -/
inductive Token where
  | word (cs : List Char)
  | quoted (cs : List Char)
  | left
  | right
  | comma
deriving DecidableEq, Repr

/-- The word read so far, if any. -/
def wordToken (acc : List Char) : List Token := if acc = [] then [] else [.word acc]

/-- A line cut into tokens; `inQuote` inside a quoted text, `acc` what has been read of the token at hand. A comment runs
to the end of the line; an unclosed quote has no reading. -/
def lexLine (inQuote : Bool) (acc : List Char) : List Char → Option (List Token)
  | [] => if inQuote then none else some (wordToken acc)
  | c :: cs =>
    if inQuote then
      if c.toNat = 34 then (lexLine false [] cs).map (.quoted acc :: ·) else lexLine true (acc ++ [c]) cs
    else if c = ';' then some (wordToken acc)
    else if c = ' ' then (lexLine false [] cs).map (wordToken acc ++ ·)
    else if c.toNat = 34 then (lexLine true [] cs).map (wordToken acc ++ ·)
    else if c = '[' then (lexLine false [] cs).map (wordToken acc ++ .left :: ·)
    else if c = ']' then (lexLine false [] cs).map (wordToken acc ++ .right :: ·)
    else if c = ',' then (lexLine false [] cs).map (wordToken acc ++ .comma :: ·)
    else lexLine false (acc ++ [c]) cs

/-- A hex digit, in either case. -/
def hexDigit (c : Char) : Option Nat :=
  let n := c.toNat
  if 48 ≤ n ∧ n ≤ 57 then some (n - 48)
  else if 97 ≤ n ∧ n ≤ 102 then some (n - 87)
  else if 65 ≤ n ∧ n ≤ 70 then some (n - 55)
  else none

/-- A byte written as a hex pair. -/
def hexByte : List Char → Option Byte
  | [hi, lo] =>
    match hexDigit hi, hexDigit lo with
    | some h, some l => some (BitVec.ofNat 8 (16 * h + l))
    | _, _ => none
  | _ => none

/-- The bytes of an ASCII text. -/
def asciiBytes : List Char → Option (List Byte)
  | [] => some []
  | c :: cs => if c.toNat < 128 then (asciiBytes cs).map (BitVec.ofNat 8 c.toNat :: ·) else none

/-- Hex pairs one after the other, as a seed is written. -/
def hexWords : List Token → Option (List Byte)
  | [] => some []
  | .word cs :: ts =>
    match hexByte cs, hexWords ts with
    | some b, some bs => some (b :: bs)
    | _, _ => none
  | _ => none

/-- Hex pairs with a comma between each two, up to the closing bracket, which ends the line. -/
def bracketItems : List Token → Option (List Byte)
  | .word cs :: .right :: [] => (hexByte cs).map ([·])
  | .word cs :: .comma :: ts =>
    match hexByte cs, bracketItems ts with
    | some b, some bs => some (b :: bs)
    | _, _ => none
  | _ => none

/-- A byte list operand: bracketed hex pairs, as R90 writes APPEND's, or a quoted text. R90 gives APPEND the bracketed form
only; that the same reading serves APPEND, APPENDBUF and HASH, so that each also takes a quoted text, is a DESIGN CHOICE
(log entry 13, unsafe for a claim about a text). -/
def bytesOperand : List Token → Option (List Byte)
  | [.left, .right] => some []
  | .left :: ts => bracketItems ts
  | [.quoted cs] => asciiBytes cs
  | _ => none

/-- A seed operand: 16 hex pairs or a quoted text of 16 characters. -/
def seedOperand (ts : List Token) : Option Din :=
  let bytes := match ts with
    | [.quoted cs] => asciiBytes cs
    | _ => hexWords ts
  match bytes with
  | some bs => if bs.length = Config.seedBytes then some (packDin bs) else none
  | none => none

/-- The tokens before the first comma and those after it. -/
def splitComma : List Token → Option (List Token × List Token)
  | [] => none
  | .comma :: ts => some ([], ts)
  | t :: ts => (splitComma ts).map fun p => (t :: p.1, p.2)

/-- One line: the commands it stands for, none of them for an empty line or a comment (R90, R91). DESIGN CHOICE: APPEND
followed by a quoted text of at most 8 characters is read too, as the APPEND of its ASCII bytes, where R90 gives only the
bracketed list (log entry 13, unsafe for a claim about a text). -/
def assembleLine (line : List Char) : Option (List Instr) :=
  match lexLine false [] line with
  | none => none
  | some [] => some []
  | some (.word kw :: ts) =>
    if kw = ['I', 'N', 'I', 'T'] then (seedOperand ts).map fun seed => [.init seed]
    else if kw = ['A', 'P', 'P', 'E', 'N', 'D'] then
      match bytesOperand ts with
      | some bs => if Instr.wellFormed (.append bs) then some [.append bs] else none
      | none => none
    else if kw = ['F', 'I', 'N', 'A', 'L'] then if ts = [] then some [.final] else none
    else if kw = ['A', 'P', 'P', 'E', 'N', 'D', 'B', 'U', 'F'] then (bytesOperand ts).map appendBuf
    else if kw = ['H', 'A', 'S', 'H'] then
      match splitComma ts with
      | some (seedPart, bytesPart) =>
        match seedOperand seedPart, bytesOperand bytesPart with
        | some seed, some msg => some (hashCommands seed msg)
        | _, _ => none
      | none => none
    else none
  | some _ => none

/-- The lines of a text. -/
def splitLines : List Char → List (List Char)
  | [] => [[]]
  | c :: cs =>
    match splitLines cs with
    | [] => [[c]]
    | line :: rest => if c.toNat = 10 then [] :: line :: rest else (c :: line) :: rest

/-- A text of commands, each on its own line (R90). -/
def assemble (text : List Char) : Option (List Instr) :=
  (splitLines text).foldr
    (fun line acc => match assembleLine line, acc with
      | some is, some rest => some (is ++ rest)
      | _, _ => none)
    (some [])

end Sys2Proof.Machine
end

