-- ==== Sys2Proof/Tests/Slice0.lean ====
section
/-!
SUPPORT. The model's own tests: expected values are the vectors of spec/95_test_vectors.md, the rows of spec/30_encoding.md
R92 and the constants of the rules, never the model's own answers. After them, one witness for each statement with
hypotheses.
-/

namespace Sys2Proof.Tests

open Sys2Proof Sys2Proof.Machine

/-! ### Well-formedness -/

/-- R86: LEN is at most 8, so nine bytes are no APPEND. -/
theorem test_append_nine_bytes_ill_formed : Instr.wellFormed (.append [0, 1, 2, 3, 4, 5, 6, 7, 8]) = false := by decide

theorem test_append_eight_bytes_well_formed : Instr.wellFormed (.append [0, 1, 2, 3, 4, 5, 6, 7]) = true := by decide

/-! ### Decoding: words written out from the fields of R81, RSV then LEN then OP -/

/-- INIT: RSV 0, LEN 0, OP 1; the DIN of R92's first row. -/
theorem test_decode_init : decode { cmd := 0b00000000#8 ++ 0b0000#4 ++ 0b0001#4
                                    din := 0x66656463626139383736353433323130#128 } =
    .instr (.init 0x66656463626139383736353433323130#128) := by decide

/-- APPEND with LEN 3: lanes 0 to 2 in stream order (R92), whatever the other lanes hold (V47). -/
theorem test_decode_append : decode { cmd := 0b00000000#8 ++ 0b0011#4 ++ 0b0010#4
                                      din := 0xffffffffffffffffffffffffff020100#128 } =
    .instr (.append [0x00#8, 0x01#8, 0x02#8]) := by decide

/-- FINAL: RSV 0, LEN 0, OP 3. -/
theorem test_decode_final : decode { cmd := 0b00000000#8 ++ 0b0000#4 ++ 0b0011#4, din := 0#128 } = .instr .final := by
  decide

/-- V88, V90, V91, V92 and the all-zero word of R88. -/
theorem test_decode_reserved :
    decode { cmd := 0x0092#16, din := 0#128 } = .illegal .appendLenTooBig ∧
    decode { cmd := 0x0013#16, din := 0#128 } = .illegal .finalLenNotZero ∧
    decode { cmd := 0x0011#16, din := 0#128 } = .illegal .initLenNotZero ∧
    decode { cmd := 0x8001#16, din := 0#128 } = .illegal .rsvNotZero ∧
    decode { cmd := 0x00f5#16, din := 0#128 } = .illegal (.reservedOp 0x5#4) ∧
    decode { cmd := 0x0000#16, din := 0#128 } = .illegal (.reservedOp 0x0#4) := by decide

/-- R90, R92: the encoder writes the spec's own words. -/
theorem test_encode_of_the_spec :
    encode (.append [0x03#8, 0x04#8, 0x05#8, 0x06#8, 0x07#8, 0x08#8, 0x09#8, 0x0a#8]) =
      { cmd := 0x0082#16, din := 0x00000000000000000a09080706050403#128 } ∧
    encode .final = { cmd := 0x0003#16, din := 0#128 } := by decide

/-- The rows of spec/opcode_table.json, read with the table's own bit numbers. -/
theorem test_table_words :
    decodeTableWord 16 0x0001 = some (.init 0#128) ∧ decodeTableWord 16 0x0002 = some (.append []) ∧
    decodeTableWord 16 0x0022 = some (.append [0#8, 0#8]) ∧ decodeTableWord 16 0x0003 = some .final ∧
    decodeTableWord 16 0x0092 = none := by decide

/-! ### Datapath vectors -/

/-- V10 to V17. -/
theorem test_word_reader :
    le64 [0, 1, 2, 3, 4, 5, 6, 7] = 0x0706050403020100#64 ∧ le64 [0x80, 0, 0, 0, 0, 0, 0, 0] = 0x80#64 ∧
    le64 [0, 0, 0, 0, 0, 0, 0, 0x80] = 0x8000000000000000#64 ∧ le64 [] = 0#64 ∧
    le64 [0, 1, 2] = 0x0000000000020100#64 := by decide

/-- V20 to V25. -/
theorem test_rotation :
    rotl 0x8000000000000001#64 13 = 0x3000#64 ∧ rotl 0x0123456789abcdef#64 32 = 0x89abcdef01234567#64 ∧
    rotl 1#64 17 = 0x20000#64 ∧ rotl 0xffffffffffffffff#64 21 = 0xffffffffffffffff#64 ∧
    rotl 0xfedcba9876543210#64 16 = 0xba9876543210fedc#64 ∧
    rotl 0x0123456789abcdef#64 21 = 0xacf13579bde02468#64 := by decide

/-- V30, V32, V34. -/
theorem test_sip_round :
    sipRound { v0 := 0x7469686173716475, v1 := 0x6b617f6d656e6665, v2 := 0x6b7f62616d677361, v3 := 0x7b6b696e727e6c7b } =
      { v0 := 0x6864848c93698c85, v1 := 0x41d43f143c94a7dc, v2 := 0xf3f94792d7121732, v3 := 0x5e52f75805987c12 } ∧
    sipRound { v0 := 1, v1 := 0, v2 := 0, v3 := 0 } =
      { v0 := 0x0000000100000000, v1 := 0x0000000000020001, v2 := 0x0000000100000000, v3 := 0x0000000100000000 } ∧
    sipRound { v0 := 0xffffffffffffffff, v1 := 0xffffffffffffffff, v2 := 0xffffffffffffffff, v3 := 0xffffffffffffffff } =
      { v0 := 0xffffffff00000000, v1 := 0xfffffffffffdffff, v2 := 0xffffffffffffffff, v3 := 0xffffffff00200000 } := by
  decide

/-- V44: a drain of 5, one compression, a remainder of 3. -/
theorem test_absorb_drain_and_remainder :
    absorb (absorb (initMessage countingSeed) [0, 1, 2]) [3, 4, 5, 6, 7, 8, 9, 10] =
      { lanes := { v0 := 0x4a017198de0a59e0, v1 := 0x0d52f6f62a4f59a4, v2 := 0x634cb3577b01fd3d
                   v3 := 0xa5224d6f55c7d9c8 }
        pending := 0x00000000000a0908#64, total := 11#64 } := by decide

/-- V61, row 63. -/
theorem test_one_shot_63 : oneShot countingSeed (countingBytes 63) = 0x958a324ceb064572#64 := by decide +kernel

/-- The first row of V62: 255 bytes, 7 of them pending, the length byte `ff`. -/
theorem test_final_block_255 : finalBlock { lanes := initLanes countingSeed, pending := 0xfefdfcfbfaf9f8#64, total := 255#64 } =
    0xfffefdfcfbfaf9f8#64 := by decide

/-- R68: the published byte order of row 0 of V61, least significant byte first. -/
theorem test_host_bytes : hostBytes [0, 1, 2, 3, 4, 5, 6, 7] 0x726fdb47dd0e0e31#64 =
    [0x31#8, 0x0e#8, 0x0e#8, 0xdd#8, 0x47#8, 0xdb#8, 0x6f#8, 0x72#8] := by decide

/-! ### One step on small states -/

/-- Two engines, the first as given, and a list of interactions. -/
def twoEngines (e : Engine) (xs : List Input) : State :=
  { engines := [{ engine := e, issued := 0 }, { engine := Engine.reset, issued := 4 }]
    target := 0, inputs := xs, observed := [] }

/-- The engine after `INIT K`. -/
def seeded : Engine := Engine.reset.start countingSeed

/-- The engine after `INIT K; APPEND [00, 01, 02]` (V41). -/
def midWord : Engine := seeded.setMessage { lanes := initLanes countingSeed, pending := 0x0000000000020100#64, total := 3#64 }

/-- The engine after `INIT K; FINAL` (V60). -/
def finished : Engine := seeded.finish (initMessage countingSeed)

/-- The engine after an illegal word at reset (V74). -/
def faulted : Engine := Engine.reset.takeFault .illegalCmd

/-- A command word to instance 0. -/
def word (w : CmdWord) (din : Din) : Input := .command 0 { cmd := w, din := din }

/-- What instance 0 holds after one step, where the step answers a next state. -/
def engineAfter (s : State) : Option Engine :=
  match step s with
  | .next t => t.engineAt 0
  | .fault _ => none
  | .refused _ => none

/-- V50: INIT from reset. -/
theorem test_init_step : engineAfter (twoEngines Engine.reset [word 0x0001 0x0f0e0d0c0b0a09080706050403020100]) =
    some { v0 := some 0x7469686173716475, v1 := some 0x6b617f6d656e6665, v2 := some 0x6b7f62616d677361
           v3 := some 0x7b6b696e727e6c7b, pending := some 0, totalBytes := some 0, phase := .absorb
           hashOut := none, hvalid := false, err := .none } := by decide

/-- R175: an INIT to a faulted engine is ignored (V79). -/
theorem test_init_ignored_when_faulted :
    engineAfter (twoEngines faulted [word 0x0001 0x0f0e0d0c0b0a09080706050403020100]) = some faulted := by decide

/-- V47: APPEND of three bytes with `ff` in the other lanes. -/
theorem test_append_step :
    engineAfter (twoEngines seeded [word 0x0032 0xffffffffffffffffffffffffff020100]) = some midWord := by decide

/-- V70: APPEND before INIT faults NOT_INIT, and STATUS shows it. -/
theorem test_append_before_init : (engineAfter (twoEngines Engine.reset [word 0x0002 0])).map Engine.status =
    some 0x00000020#32 := by decide

/-- V60: FINAL of the empty message. -/
theorem test_final_step : (engineAfter (twoEngines seeded [word 0x0003 0])).map (fun e => (e.v0, e.v3, e.hashPort, e.status)) =
    some (some 0xe738d0dfdc9b2453, some 0x56f7bf1995ce89dd, some 0x726fdb47dd0e0e31, 0x00000006) := by decide

/-- V72: FINAL after FINAL faults and keeps the result. -/
theorem test_final_after_final :
    (engineAfter (twoEngines finished [word 0x0003 0])).map (fun e => (e.hashPort, e.status)) =
      some (some 0x726fdb47dd0e0e31, 0x00000036) := by decide

/-- V77: RSV not 0 after INIT. -/
theorem test_reserved_word_step : (engineAfter (twoEngines seeded [word 0x0102 0])).map Engine.status =
    some 0x00000011#32 := by decide

/-- The instruction of each table row runs as the first one after reset. -/
theorem test_first_instruction_after_reset :
    engineAfter (State.reset.withFetchWord 16 0x0001) = some (Engine.reset.start 0#128) ∧
    engineAfter (State.reset.withFetchWord 16 0x0002) = some (Engine.reset.takeFault .notInit) ∧
    engineAfter (State.reset.withFetchWord 16 0x0003) = some (Engine.reset.takeFault .notInit) := by decide

/-! ### The command syntax -/

/-- R90: the seed as a quoted text (R92, first row), and a comment. -/
theorem test_assemble_init :
    assembleLine ['I', 'N', 'I', 'T', ' ', '\"', '0', '1', '2', '3', '4', '5', '6', '7', '8', '9', 'a', 'b', 'c', 'd', 'e',
      'f', '\"', ' ', ';', ' ', 'k'] = some [.init 0x66656463626139383736353433323130#128] := by decide

/-- R90: bracketed bytes, and two lines. -/
theorem test_assemble_append_final :
    assemble ['A', 'P', 'P', 'E', 'N', 'D', ' ', '[', '0', '0', ',', ' ', '0', 'a', ']', '\n', 'F', 'I', 'N', 'A', 'L'] =
      some [.append [0x00#8, 0x0a#8], .final] := by decide

/-! ### Witnesses: each statement with hypotheses has a state and operands that meet them all -/

theorem witness_aligned_seeded : (initMessage countingSeed).Aligned := by decide

theorem witness_message_midWord :
    midWord.message = some { lanes := initLanes countingSeed, pending := 0x0000000000020100#64, total := 3#64 } := rfl

theorem witness_aligned_midWord :
    (Message.mk (initLanes countingSeed) 0x0000000000020100#64 3#64).Aligned := by decide

/-- `DecodeOfEncode`, at both ends of APPEND's range. -/
theorem witness_DecodeOfEncode : Instr.wellFormed (.init countingSeed) = true ∧ Instr.wellFormed (.append []) = true ∧
    Instr.wellFormed (.append (countingBytes 8)) = true ∧ Instr.wellFormed .final = true := by decide

/-- `EncodeOfDecodeRestoresWhatIsRead`, for each command. -/
theorem witness_EncodeOfDecodeRestoresWhatIsRead :
    decode { cmd := 0x0001#16, din := countingSeed } = .instr (.init countingSeed) ∧
    decode { cmd := 0x0082#16, din := countingSeed } = .instr (.append (countingBytes 8)) ∧
    decode { cmd := 0x0003#16, din := countingSeed } = .instr .final := by decide

/-- `LegalAndReservedWords`: the last clause, at the words next to the legal ones. -/
theorem witness_LegalAndReservedWords :
    legal 0x0000#16 = false ∧ legal 0x0004#16 = false ∧ legal 0x0092#16 = false ∧ legal 0x0011#16 = false ∧
    legal 0x0101#16 = false ∧ (twoEngines seeded [word 0x0092 0]).inputs = word 0x0092 0 :: [] ∧
    (twoEngines seeded [word 0x0092 0]).engineAt 0 = some seeded ∧ seeded.err = .none := by decide

/-- `DecoderFollowsItsTests` branches: each is taken by some word. -/
theorem witness_DecoderFollowsItsTests :
    (0x0100#16).toNat / 256 ≠ 0 ∧ ((0x0001#16).toNat % 16 = 1 ∧ (0x0001#16).toNat / 16 = 0) ∧
    ((0x0082#16).toNat % 16 = 2 ∧ (0x0082#16).toNat / 16 ≤ 8) ∧ ¬ (0x0092#16).toNat / 16 ≤ 8 ∧
    ((0x0003#16).toNat % 16 = 3 ∧ (0x0003#16).toNat / 16 = 0) := by decide

/-- `UnreadLanesNeverMatter`: two APPENDs that differ past LEN only. -/
theorem witness_UnreadLanesNeverMatter :
    (Command.mk 0x0032#16 0x00000000000000000000000000020100#128).op = 0x2#4 ∧
    (∀ j < (Command.mk 0x0032#16 0x00000000000000000000000000020100#128).len.toNat,
      dinLane 0x00000000000000000000000000020100#128 j = dinLane 0xffffffffffffffffffffffffff020100#128 j) ∧
    (0x00000000000000000000000000020100#128 ≠ 0xffffffffffffffffffffffffff020100#128) := by decide

/-- `StepRunsTheDecodedInstruction`, and `step` does answer there. -/
theorem witness_StepRunsTheDecodedInstruction :
    (twoEngines midWord [word 0x0003 0]).inputs = word 0x0003 0 :: [] ∧
    decode { cmd := 0x0003#16, din := 0#128 } = .instr .final ∧
    (engineAfter (twoEngines midWord [word 0x0003 0])).isSome := by decide

/-- `StepOnTheOtherInteractions`, each clause. -/
theorem witness_StepOnTheOtherInteractions :
    (twoEngines midWord []).inputs = [] ∧ (twoEngines midWord [.reset]).inputs = .reset :: [] ∧
    (twoEngines midWord [.readStatus 0]).engineAt 0 = some midWord ∧
    (twoEngines finished [.readHashOut 1]).engineAt 1 = some Engine.reset ∧
    decode { cmd := 0x0000#16, din := 0#128 } = .illegal (.reservedOp 0#4) := by decide

/-- `CommandsAreCounted`: a command, and a step that is none. -/
theorem witness_CommandsAreCounted :
    (∃ t, step (twoEngines midWord [word 0x0003 0]) = .next t ∧ t.issuedAt 0 = some 1 ∧ t.issuedAt 1 = some 4) ∧
    (∃ t, step (twoEngines midWord [.reset]) = .next t ∧ t.issuedAt 0 = some 0) ∧
    ∀ k c rest, (twoEngines midWord [.reset]).inputs ≠ .command k c :: rest :=
  ⟨⟨_, rfl, by decide⟩, ⟨_, rfl, by decide⟩, by simp [twoEngines]⟩

/-- `CommandsTakeEffectInOrder`: commands to both instances, with an interaction after them. -/
theorem witness_CommandsTakeEffectInOrder :
    (twoEngines seeded [word 0x0003 0, .command 1 { cmd := 0x0001#16, din := 0#128 }, .reset]).inputs =
      [(0, Command.mk 0x0003#16 0#128), (1, Command.mk 0x0001#16 0#128)].map (fun x => .command x.1 x.2) ++ [.reset] := by
  decide

/-- `InitEffect`: the three clauses; `InitForgetsTheEngine`: the first INIT answers. -/
theorem witness_InitEffect :
    (twoEngines finished []).engineAt (twoEngines finished []).target = some finished ∧ finished.err = .none ∧
    (twoEngines faulted []).engineAt (twoEngines faulted []).target = some faulted ∧ faulted.err ≠ .none ∧
    (Command.mk 0x0011#16 0#128).op = 0x1#4 ∧ (Command.mk 0x0011#16 0#128).cmd ≠ 0x0001#16 := by decide

theorem witness_InitForgetsTheEngine : ∃ t, exec (.init countingSeed) (twoEngines finished []) = .next t := ⟨_, rfl⟩

/-- `SeedBytesReachTheirLanes`: the first and the last byte of the range, from different seed bytes. -/
theorem witness_SeedBytesReachTheirLanes :
    dinLane countingSeed 0 = 0x00#8 ∧ dinLane countingSeed 7 = 0x07#8 ∧ dinLane countingSeed (8 + 7) = 0x0f#8 := by decide

/-- `AppendEffect`: ignored, NOT_INIT, USE_AFTER_FINAL, performed with 0 and with 8 bytes, and the reserved words. -/
theorem witness_AppendEffect :
    (twoEngines faulted []).engineAt 0 = some faulted ∧ faulted.err ≠ .none ∧
    Engine.reset.err = .none ∧ Engine.reset.phase = .idle ∧ finished.err = .none ∧ finished.phase = .done ∧
    (twoEngines midWord []).engineAt (twoEngines midWord []).target = some midWord ∧
    midWord.err = .none ∧ midWord.phase = .absorb ∧ midWord.message.isSome ∧
    ([] : List Byte).length ≤ 8 ∧ (countingBytes 8).length ≤ 8 ∧
    (Command.mk 0x0092#16 0#128).op = 0x2#4 ∧ 8 < (Command.mk 0x0092#16 0#128).len.toNat ∧
    (Command.mk 0x0102#16 0#128).rsv ≠ 0#8 := by decide

/-- `FinalEffect`: the same for FINAL. -/
theorem witness_FinalEffect :
    (twoEngines midWord []).engineAt (twoEngines midWord []).target = some midWord ∧ midWord.err = .none ∧
    midWord.phase = .absorb ∧ midWord.message.isSome ∧
    (Command.mk 0x0013#16 0#128).op = 0x3#4 ∧ (Command.mk 0x0013#16 0#128).len ≠ 0#4 ∧
    (Command.mk 0x0103#16 0#128).rsv ≠ 0#8 := by decide

/-- `CommandsTouchOneEngine` and `EngineFrames`: each command answers a next state; a performed APPEND that completes no
word, one that is not performed, an empty one, and a term of 9 bytes, which no word encodes (log entry 19). -/
theorem witness_EngineFrames :
    (∃ t, exec (.init countingSeed) (twoEngines midWord []) = .next t ∧ (t.engineAt 0).isSome) ∧
    (∃ t, exec (.append [0xaa#8]) (twoEngines midWord []) = .next t ∧ (t.engineAt 0).isSome) ∧
    (∃ t, exec (.append [0xaa#8]) (twoEngines finished []) = .next t ∧ (t.engineAt 0).isSome) ∧
    (∃ t, exec (.append []) (twoEngines midWord []) = .next t ∧ (t.engineAt 0).isSome) ∧
    (∃ t, exec (.append (countingBytes 9)) (twoEngines midWord []) = .next t ∧
      t.engineAt 0 = some (midWord.takeFault .illegalCmd)) ∧
    8 < (countingBytes 9).length ∧
    (∃ t, exec .final (twoEngines midWord []) = .next t ∧ (t.engineAt 0).isSome) ∧
    midWord.totalBytes = some 3#64 ∧ (3#64).toNat % 8 + [0xaa#8].length < 8 :=
  ⟨⟨_, rfl, by decide⟩, ⟨_, rfl, by decide⟩, ⟨_, rfl, by decide⟩, ⟨_, rfl, by decide⟩, ⟨_, rfl, by decide⟩,
    by decide, ⟨_, rfl, by decide⟩, rfl, by decide⟩

/-- `WordReader`: the longest list and the last byte. -/
theorem witness_WordReader : (countingBytes 8).length ≤ 8 ∧ (countingBytes 8).getD 7 0#8 = 7#8 := by decide

/-- `RotlRotates`: both ends of the amounts, a bit on each side of the wrap. -/
theorem witness_RotlRotates :
    (rotl 1#64 63).getLsbD 63 = true ∧ (rotl 0x8000000000000000#64 1).getLsbD 0 = true := by decide

/-- `SipRoundOperations`: the ten intermediate values are those of the trace V30. -/
theorem witness_SipRoundOperations :
    0xdfcae7ced8dfcada#64 = BitVec.ofNat 64 ((0x7469686173716475#64).toNat + (0x6b617f6d656e6665#64).toNat) ∧
    0xf0274b63141367b6#64 = (0x6b617f6d656e6665#64).rotateLeft 13 ^^^ 0xdfcae7ced8dfcada#64 ∧
    0xd8dfcadadfcae7ce#64 = (0xdfcae7ced8dfcada#64).rotateLeft 32 ∧
    0xe6eacbcfdfe5dfdc#64 = BitVec.ofNat 64 ((0x6b7f62616d677361#64).toNat + (0x7b6b696e727e6c7b#64).toNat) ∧
    0x8f84b9b1b39ea4b7#64 = (0x7b6b696e727e6c7b#64).rotateLeft 16 ^^^ 0xe6eacbcfdfe5dfdc#64 ∧
    0x6864848c93698c85#64 = BitVec.ofNat 64 ((0xd8dfcadadfcae7ce#64).toNat + (0x8f84b9b1b39ea4b7#64).toNat) ∧
    0x5e52f75805987c12#64 = (0x8f84b9b1b39ea4b7#64).rotateLeft 21 ^^^ 0x6864848c93698c85#64 ∧
    0xd7121732f3f94792#64 = BitVec.ofNat 64 ((0xe6eacbcfdfe5dfdc#64).toNat + (0xf0274b63141367b6#64).toNat) ∧
    0x41d43f143c94a7dc#64 = (0xf0274b63141367b6#64).rotateLeft 17 ^^^ 0xd7121732f3f94792#64 := by decide

/-- `AbsorbCutsTheStream` and `WorkPerAppend`: nothing pending, and three bytes pending with 4, 5 and 8 more, on both
sides of a complete word. -/
theorem witness_AbsorbCutsTheStream :
    ([] : List Byte).length = (0#64).toNat % 8 ∧ (0#64 : Word) = le64 [] ∧
    [0x00#8, 0x01#8, 0x02#8].length = (3#64).toNat % 8 ∧ 0x0000000000020100#64 = le64 [0x00#8, 0x01#8, 0x02#8] ∧
    3 + (countingBytes 4).length < 8 ∧ ¬ 3 + (countingBytes 5).length < 8 ∧ (countingBytes 8).length ≤ 8 := by decide

/-- `EmptyAppend`: an engine in each phase with no fault. -/
theorem witness_EmptyAppend :
    (twoEngines midWord []).engineAt (twoEngines midWord []).target = some midWord ∧ midWord.phase = .absorb ∧
    (twoEngines Engine.reset []).engineAt 0 = some Engine.reset ∧ Engine.reset.phase = .idle ∧
    (twoEngines finished []).engineAt 0 = some finished ∧ finished.phase = .done := by decide

/-- `OnlyTheLengthByteCounts`: counts 1 and 257. -/
theorem witness_OnlyTheLengthByteCounts : (1#64).toNat % 256 = (257#64).toNat % 256 ∧ (1#64 : Word) ≠ 257#64 := by decide

/-- `TrailingBytesOfTheFinalBlock`: a length that is a multiple of 8, and one with a first and a last trailing byte. -/
theorem witness_TrailingBytesOfTheFinalBlock :
    (countingBytes 16).length % 8 = 0 ∧ (countingBytes 15).length % 8 = 7 ∧ (countingBytes 9).length % 8 = 1 := by decide

/-- `FinalConsumesTheEngine`. -/
theorem witness_FinalConsumesTheEngine :
    (twoEngines midWord []).engineAt (twoEngines midWord []).target = some midWord ∧ midWord.err = .none ∧
    midWord.phase = .absorb ∧ midWord.message.isSome ∧ ∃ t, exec .final (twoEngines midWord []) = .next t :=
  ⟨rfl, rfl, rfl, rfl, _, rfl⟩

/-- `AppendBufAbsorbsTheBuffer`: a buffer of two pieces, and a cut that is not the canonical one. -/
theorem witness_AppendBufAbsorbsTheBuffer :
    (appendBuf (countingBytes 15)).length = 2 ∧ countingBytes 15 ≠ [] ∧
    (∀ p ∈ [countingBytes 3, countingBytes 8, []], p.length ≤ 8) ∧
    (twoEngines midWord []).engineAt (twoEngines midWord []).target = some midWord ∧ midWord.err = .none := by decide

/-- `HashGivesTheOneShotHash`: HASH issued to a finished engine, and to a faulted one. -/
theorem witness_HashGivesTheOneShotHash :
    (twoEngines finished (issue 0 (hashCommands countingSeed (countingBytes 9)) ++ [.readHashOut 0])).inputs =
      issue 0 (hashCommands countingSeed (countingBytes 9)) ++ [.readHashOut 0] ∧
    (twoEngines finished []).engineAt 0 = some finished ∧ finished.err = .none ∧ faulted.err ≠ .none := by decide

/-- `HashDependsOnSeedAndMessageOnly`: two cuts of one message. -/
theorem witness_HashDependsOnSeedAndMessageOnly :
    (∀ p ∈ [[0x00#8, 0x01#8], [0x02#8]], p.length ≤ 8) ∧
    [[0x00#8, 0x01#8], [0x02#8]].flatten = [[0x00#8], [], [0x01#8, 0x02#8]].flatten := by decide

/-- `FaultPriority`: each branch of the chain has a command and an engine. -/
theorem witness_FaultPriority :
    faulted.err ≠ .none ∧ legal 0x0092#16 = false ∧
    ((Command.mk 0x0002#16 0#128).op = 0x2#4 ∧ legal 0x0002#16 = true ∧ Engine.reset.phase = .idle) ∧
    ((Command.mk 0x0003#16 0#128).op = 0x3#4 ∧ legal 0x0003#16 = true ∧ finished.phase = .done) ∧
    ((Command.mk 0x0001#16 0#128).op = 0x1#4 ∧ legal 0x0001#16 = true) ∧
    (midWord.phase = .absorb ∧ (engineAfter (twoEngines midWord [word 0x0003 0])).isSome) := by decide

/-- `FaultsArePrecise`: a step that takes a fault. -/
theorem witness_FaultsArePrecise :
    ∃ t, step (twoEngines finished [word 0x0012 0]) = .next t ∧
      t.engineAt 0 = some (finished.takeFault .useAfterFinal) ∧ finished.err = .none ∧
      (finished.takeFault .useAfterFinal).err ≠ .none :=
  ⟨_, rfl, by decide, rfl, by decide⟩

/-- `FaultedEngineStaysFaulted`: a run of two commands with no reset, and the two reads. -/
theorem witness_FaultedEngineStaysFaulted :
    (∃ t, Host.Core.run core 2 (twoEngines faulted [word 0x0001 0, word 0x0003 0]) = .next t) ∧
    Input.reset ∉ [word 0x0001 0, word 0x0003 0].take 2 ∧ (twoEngines faulted []).engineAt 0 = some faulted ∧
    (twoEngines faulted [.readStatus 0]).inputs = .readStatus 0 :: [] ∧
    (twoEngines faulted [.readHashOut 0]).inputs = .readHashOut 0 :: [] :=
  ⟨⟨_, rfl⟩, by decide, rfl, rfl, rfl⟩

/-- `OnlyResetClearsErr`: the step that clears a code. -/
theorem witness_OnlyResetClearsErr :
    ∃ t, step (twoEngines faulted [.reset]) = .next t ∧ t.engineAt 0 = some Engine.reset ∧ faulted.err ≠ .none ∧
      Engine.reset.err = .none :=
  ⟨_, rfl, by decide, by decide, rfl⟩

/-- The invariant holds of an engine in each phase. -/
theorem witness_engine_inv : Engine.reset.Inv ∧ midWord.Inv ∧ finished.Inv :=
  ⟨⟨rfl, rfl, rfl, rfl, rfl, rfl, rfl, rfl⟩, ⟨⟨_, rfl, by decide⟩, rfl, rfl⟩, ⟨⟨_, rfl, by decide, by decide⟩, rfl⟩⟩

/-- `PhaseTransitions` and `StatusAfterEachCommand`: a command to an engine that obeys the invariant, in each phase. -/
theorem witness_PhaseTransitions :
    (∀ e ∈ [Engine.reset, midWord, finished], e.err = .none ∧ (twoEngines e [word 0x0012 0]).engineAt 0 = some e ∧
      (twoEngines e [word 0x0012 0]).inputs = word 0x0012 0 :: []) ∧
    (Engine.reset.Inv ∧ midWord.Inv ∧ finished.Inv) :=
  ⟨by decide, witness_engine_inv⟩

/-- `WritersOfHashOut`: the three steps that change `hash_out`. -/
theorem witness_WritersOfHashOut :
    (∃ t, step (twoEngines midWord [word 0x0003 0]) = .next t ∧
      (t.engineAt 0).map Engine.hashOut ≠ some midWord.hashOut) ∧
    (∃ t, step (twoEngines finished [word 0x0001 0]) = .next t ∧
      (t.engineAt 0).map Engine.hashOut ≠ some finished.hashOut) ∧
    (∃ t, step (twoEngines finished [.reset]) = .next t ∧
      (t.engineAt 0).map Engine.hashOut ≠ some finished.hashOut) :=
  ⟨⟨_, rfl, by decide⟩, ⟨_, rfl, by decide⟩, ⟨_, rfl, by decide⟩⟩

/-- `StatusLayout` and `ReadsHaveNoSideEffect`: reads of an engine that is there. -/
theorem witness_ReadsHaveNoSideEffect :
    (twoEngines finished [.readStatus 0, .readStatus 0]).engineAt 0 = some finished ∧
    (twoEngines finished [.readHashOut 0, .readHashOut 0]).engineAt 0 = some finished := by decide

/-- `InstancesAreIndependent`: two platforms with the same engine at instance 0 and different ones beside it. -/
theorem witness_InstancesAreIndependent :
    (twoEngines midWord [word 0x0003 0]).engineAt 0 =
      ({ twoEngines midWord [word 0x0003 0] with engines := [{ engine := midWord, issued := 9 }] } : State).engineAt 0 ∧
    ∃ t, step (twoEngines midWord [word 0x0003 0]) = .next t := ⟨rfl, _, rfl⟩

/-- `ResetState`: a reset of a platform with work in progress, and a platform of three engines. -/
theorem witness_ResetState :
    (twoEngines midWord [.reset]).inputs = .reset :: [] ∧ (State.resetOf 3).engineAt 2 = some Engine.reset := by decide

/-- Two engines, one in the middle of a word, meet the invariant, whatever the host does next. -/
theorem twoEngines_midWord_inv (xs : List Input) : (twoEngines midWord xs).Inv := by
  refine ⟨List.cons_ne_nil _ _, fun x hx => ?_⟩
  simp only [twoEngines, List.mem_cons, List.not_mem_nil, or_false] at hx
  rcases hx with rfl | rfl
  · exact witness_engine_inv.2.1
  · exact witness_engine_inv.1

/-- `ResetMeetsTheInvariant` and `EveryStepKeepsTheInvariant`: a state with two engines in different phases meets it, and
steps. -/
theorem witness_EveryStepKeepsTheInvariant :
    (twoEngines midWord [word 0x0003 0]).Inv ∧ ∃ t, step (twoEngines midWord [word 0x0003 0]) = .next t :=
  ⟨twoEngines_midWord_inv _, _, rfl⟩

/-- `EveryAddressedStepAnswers`: its interaction addresses an instance that is there. -/
theorem witness_EveryAddressedStepAnswers :
    (twoEngines midWord [word 0x0003 0]).Inv ∧
    ∀ x ∈ (twoEngines midWord [word 0x0003 0]).inputs.head?, x.Addresses (twoEngines midWord [word 0x0003 0]) := by
  refine ⟨twoEngines_midWord_inv _, fun x hx => ?_⟩
  simp only [twoEngines, word, List.head?_cons, Option.mem_def, Option.some.injEq] at hx
  subst hx
  decide

/-- `EveryAddressedStepAnswers`: no interaction at all (log entry 10). -/
theorem witness_EveryAddressedStepAnswers_waiting :
    (twoEngines midWord []).Inv ∧ (∀ x ∈ (twoEngines midWord []).inputs.head?, x.Addresses (twoEngines midWord [])) ∧
    step (twoEngines midWord []) = .next (twoEngines midWord []) :=
  ⟨twoEngines_midWord_inv [], fun x hx => by simp [twoEngines] at hx, rfl⟩

end Sys2Proof.Tests
end

/-!
PROOFS. The family of spec/10_state.md. First the rules the proofs share: the checks of R173 branch by branch, what each
decoded command does to the engine it is addressed to, and the step on a command.
-/

namespace Sys2Proof.Machine

open Host (Outcome)

section CheckBranches

variable {e : Engine} {isLegal usesMessage : Bool}

theorem Engine.check_of_illegal (he : e.err = .none) : e.check false usesMessage = .faults .illegalCmd := by
  simp [Engine.check, he]

theorem Engine.check_of_idle (he : e.err = .none) (hl : isLegal = true) (hp : e.phase = .idle) :
    e.check isLegal true = .faults .notInit := by
  simp [Engine.check, he, hl, hp]

theorem Engine.check_of_done (he : e.err = .none) (hl : isLegal = true) (hp : e.phase = .done) :
    e.check isLegal true = .faults .useAfterFinal := by
  simp [Engine.check, he, hl, hp]

variable (act : Engine → Outcome Engine Fault Refusal)

theorem Engine.perform_of_faults {code : ErrCode} (h : e.check isLegal usesMessage = .faults code) :
    Engine.perform isLegal usesMessage act e = .next (e.takeFault code) := by
  simp [Engine.perform, h]

theorem Engine.perform_of_accepted (h : e.check isLegal usesMessage = .accepted) :
    Engine.perform isLegal usesMessage act e = act e := by
  simp [Engine.perform, h]

end CheckBranches

/-- The engine part of what a command does, legal or not. -/
def Decoded.runOn : Decoded → Engine → Outcome Engine Fault Refusal
  | .instr i => Instr.runOn i
  | .illegal _ => Engine.perform false false .next

@[simp] theorem length_dinBytes (d : Din) (n : Nat) : (dinBytes d n).length = n := by
  simp [dinBytes]

theorem wellFormed_of_decode {c : Command} {i : Instr} (h : decode c = .instr i) : i.wellFormed = true := by
  unfold decode at h
  split_ifs at h with _ _ _ _ hlen <;> cases h
  · rfl
  · simpa [Instr.wellFormed] using hlen
  · rfl

/-- An engine that obeys its invariant holds a message in ABSORB (R31, R33). -/
theorem Engine.Inv.exists_message {e : Engine} (hinv : e.Inv) (hp : e.phase = .absorb) :
    ∃ m, e.message = some m := by
  simp only [Engine.Inv, hp] at hinv
  obtain ⟨⟨m, hm, -⟩, -, -⟩ := hinv
  exact ⟨m, hm⟩

section UnfaultedEngine

variable {e : Engine} (he : e.err = .none)
include he

theorem runOn_illegal (why : Illegal) : Decoded.runOn (.illegal why) e = .next (e.takeFault .illegalCmd) :=
  Engine.perform_of_faults _ (Engine.check_of_illegal he)

theorem runOn_init (seed : Din) : Instr.runOn (.init seed) e = .next (e.start seed) :=
  Engine.perform_of_accepted (fun x => .next (x.start seed)) ((e.check_eq_accepted_iff _ _).2 ⟨he, rfl, by simp⟩)

theorem runOn_idle {i : Instr} (hi : ∀ seed, i ≠ .init seed) (hwf : i.wellFormed = true) (hp : e.phase = .idle) :
    Instr.runOn i e = .next (e.takeFault .notInit) := by
  cases i with
  | init seed => exact absurd rfl (hi seed)
  | append bs => exact Engine.perform_of_faults _ (Engine.check_of_idle he hwf hp)
  | final => exact Engine.perform_of_faults _ (Engine.check_of_idle he hwf hp)

theorem runOn_done {i : Instr} (hi : ∀ seed, i ≠ .init seed) (hwf : i.wellFormed = true) (hp : e.phase = .done) :
    Instr.runOn i e = .next (e.takeFault .useAfterFinal) := by
  cases i with
  | init seed => exact absurd rfl (hi seed)
  | append bs => exact Engine.perform_of_faults _ (Engine.check_of_done he hwf hp)
  | final => exact Engine.perform_of_faults _ (Engine.check_of_done he hwf hp)

theorem runOn_append_absorb {bs : List Byte} {m : Message} (hwf : Instr.wellFormed (.append bs) = true)
    (hp : e.phase = .absorb) (hm : e.message = some m) :
    Instr.runOn (.append bs) e = .next (e.setMessage (absorb m bs)) :=
  (Engine.perform_of_accepted _ ((e.check_eq_accepted_iff _ _).2 ⟨he, hwf, fun _ => hp⟩)).trans
    ((e.onMessage_eq_next_iff _ _).2 ⟨m, hm, rfl⟩)

theorem runOn_final_absorb {m : Message} (hp : e.phase = .absorb) (hm : e.message = some m) :
    Instr.runOn .final e = .next (e.finish m) :=
  (Engine.perform_of_accepted _ ((e.check_eq_accepted_iff _ _).2 ⟨he, rfl, fun _ => hp⟩)).trans
    ((e.onMessage_eq_next_iff _ _).2 ⟨m, hm, rfl⟩)

end UnfaultedEngine

theorem performCommand_eq_onTarget (k : Nat) (c : Command) (s : State) :
    performCommand k c s = (s.aim k).onTarget (Decoded.runOn (decode c)) := by
  unfold performCommand
  cases decode c with
  | instr i => exact exec_eq_onTarget i _
  | illegal why => rfl

section StepOnACommand

variable {s t : State} {k : Nat} {c : Command} {rest : List Input} (hin : s.inputs = .command k c :: rest)
include hin

theorem step_command : step s = performCommand k c (s.withInputs rest) := by
  simp [step, hin, takeInput]

/-- A step on a command answers a next state exactly when the addressed engine does, and then only that engine and the
host's records change. -/
theorem step_command_eq_next_iff :
    step s = .next t ↔ ∃ e e', s.engineAt k = some e ∧ Decoded.runOn (decode c) e = .next e' ∧
      t = ((s.withInputs rest).aim k).setEngine k e' := by
  rw [step_command hin, performCommand_eq_onTarget, State.onTarget_eq_next_iff]
  simp

theorem step_command_of_runOn {e e' : Engine} (hk : s.engineAt k = some e)
    (hrun : Decoded.runOn (decode c) e = .next e') : ∃ t, step s = .next t ∧ t.engineAt k = some e' :=
  ⟨_, (step_command_eq_next_iff hin).2 ⟨e, e', hk, hrun, rfl⟩,
    State.engineAt_setEngine_self _ k e e' (by simpa using hk)⟩

theorem runOn_of_step_command (hstep : step s = .next t) :
    ∃ e e', s.engineAt k = some e ∧ Decoded.runOn (decode c) e = .next e' ∧ t.engineAt k = some e' := by
  obtain ⟨e, e', hk, hrun, rfl⟩ := (step_command_eq_next_iff hin).1 hstep
  exact ⟨e, e', hk, hrun, State.engineAt_setEngine_self _ k e e' (by simpa using hk)⟩

theorem step_command_engineAt_other (hstep : step s = .next t) {j : Nat} (hj : j ≠ k) :
    t.engineAt j = s.engineAt j := by
  obtain ⟨e, e', -, -, rfl⟩ := (step_command_eq_next_iff hin).1 hstep
  rw [State.engineAt_setEngine_other _ _ _ _ hj]
  simp

end StepOnACommand

/-- Settles O44, one row of R37's table at a time: each row names the engine the command leaves. -/
theorem phaseTransitions : Obligations.PhaseTransitions := by
  intro s k c rest e hin hk he hinv
  have answers {e' : Engine} (hrun : Decoded.runOn (decode c) e = .next e') :
      ∃ t, step s = .next t ∧ t.engineAt k = some e' := step_command_of_runOn hin hk hrun
  cases hd : decode c with
  | illegal why =>
    obtain ⟨t, hstep, ht⟩ := answers (hd ▸ runOn_illegal he why)
    exact ⟨t, _, hstep, ht, rfl, rfl⟩
  | instr i =>
    have hwf : i.wellFormed = true := wellFormed_of_decode hd
    rw [hd] at answers
    cases i with
    | init seed =>
      obtain ⟨t, hstep, ht⟩ := answers (runOn_init he seed)
      exact ⟨t, _, hstep, ht, rfl, he⟩
    | append bs =>
      cases hp : e.phase with
      | idle =>
        obtain ⟨t, hstep, ht⟩ := answers (runOn_idle he (by simp) hwf hp)
        exact ⟨t, _, hstep, ht, hp, rfl⟩
      | absorb =>
        obtain ⟨m, hm⟩ := hinv.exists_message hp
        obtain ⟨t, hstep, ht⟩ := answers (runOn_append_absorb he hwf hp hm)
        exact ⟨t, _, hstep, ht, hp, he⟩
      | done =>
        obtain ⟨t, hstep, ht⟩ := answers (runOn_done he (by simp) hwf hp)
        exact ⟨t, _, hstep, ht, hp, rfl⟩
    | final =>
      cases hp : e.phase with
      | idle =>
        obtain ⟨t, hstep, ht⟩ := answers (runOn_idle he (by simp) hwf hp)
        exact ⟨t, _, hstep, ht, hp, rfl⟩
      | absorb =>
        obtain ⟨m, hm⟩ := hinv.exists_message hp
        obtain ⟨t, hstep, ht⟩ := answers (runOn_final_absorb he hp hm)
        exact ⟨t, _, hstep, ht, rfl, he⟩
      | done =>
        obtain ⟨t, hstep, ht⟩ := answers (runOn_done he (by simp) hwf hp)
        exact ⟨t, _, hstep, ht, hp, rfl⟩

/-- Settles O49: the step on a command is an action on the addressed engine alone, so the other engines stay, and the
same engine there gives the same answer on any platform. -/
theorem instancesAreIndependent : Obligations.InstancesAreIndependent := by
  constructor
  · intro s t k c rest hin hstep j hj
    exact step_command_engineAt_other hin hstep hj
  · intro s s' t k c rest rest' hin hin' hsame hstep
    obtain ⟨e, e', hk, hrun, ht⟩ := runOn_of_step_command hin hstep
    obtain ⟨t', hstep', ht'⟩ := step_command_of_runOn hin' (hsame.symm.trans hk) hrun
    exact ⟨t', hstep', ht'.trans ht.symm⟩

end Sys2Proof.Machine

/-!
PROOFS. The family of spec/30_encoding.md. First the three fields of a command word as numbers, and legality (R87) read
off the fields of a command, off the word's number, and off the decoder.
-/

namespace Sys2Proof.Machine

section CommandFields

variable (c : Command)

theorem Command.op_toNat : c.op.toNat = c.cmd.toNat % 16 := by
  simp [Command.op, BitVec.extractLsb'_toNat]

theorem Command.len_toNat : c.len.toNat = c.cmd.toNat / 16 % 16 := by
  simp [Command.len, BitVec.extractLsb'_toNat, Nat.shiftRight_eq_div_pow]

theorem Command.rsv_toNat : c.rsv.toNat = c.cmd.toNat / 256 := by
  have hlt : c.cmd.toNat < 65536 := c.cmd.isLt
  simp only [Command.rsv, BitVec.extractLsb'_toNat, Nat.shiftRight_eq_div_pow]
  omega

theorem legal_cmd_iff : legal c.cmd = true ↔
    c.rsv = 0#8 ∧ ((c.op = 1#4 ∧ c.len = 0#4) ∨ (c.op = 2#4 ∧ c.len.toNat ≤ 8) ∨ (c.op = 3#4 ∧ c.len = 0#4)) := by
  simp [legal, Command.rsv, Command.op, Command.len, BitVec.le_def, or_assoc]

/-- The decoder rejects exactly the words that are not legal, whatever the data lanes hold (R87): each branch of R89's
chain fixes every field that legality reads. -/
theorem exists_decode_eq_illegal_iff : (∃ why, decode c = .illegal why) ↔ legal c.cmd = false := by
  rw [← Bool.not_eq_true, legal_cmd_iff]
  unfold decode
  split_ifs <;> simp [*]

end CommandFields

section LegalWords

variable (w : CmdWord)

/-- R87's formula on the fields as numbers. -/
theorem legal_iff_fields : legal w = true ↔ w.toNat / 256 = 0 ∧
    ((w.toNat % 16 = 1 ∧ w.toNat / 16 % 16 = 0) ∨ (w.toNat % 16 = 2 ∧ w.toNat / 16 % 16 ≤ 8) ∨
      (w.toNat % 16 = 3 ∧ w.toNat / 16 % 16 = 0)) := by
  have h := legal_cmd_iff { cmd := w, din := 0#128 }
  simpa [← BitVec.toNat_inj, Command.op_toNat, Command.len_toNat, Command.rsv_toNat] using h

/-- R87's eleven words. -/
theorem legal_iff_mem : legal w = true ↔
    w ∈ [0x0001#16, 0x0002#16, 0x0012#16, 0x0022#16, 0x0032#16, 0x0042#16, 0x0052#16, 0x0062#16,
      0x0072#16, 0x0082#16, 0x0003#16] := by
  rw [legal_iff_fields]
  simp only [List.mem_cons, List.not_mem_nil, or_false, ← BitVec.toNat_inj, BitVec.toNat_ofNat]
  omega

/-- R88's reserved forms. -/
theorem legal_eq_false_iff_reserved : legal w = false ↔
    (w.toNat % 16 = 0 ∨ 4 ≤ w.toNat % 16) ∨ (w.toNat % 16 = 2 ∧ 9 ≤ w.toNat / 16 % 16) ∨
      ((w.toNat % 16 = 1 ∨ w.toNat % 16 = 3) ∧ w.toNat / 16 % 16 ≠ 0) ∨ w.toNat / 256 ≠ 0 := by
  rw [← Bool.not_eq_true, legal_iff_fields]
  omega

end LegalWords

/-- A command word that is not legal faults ILLEGAL_CMD on an engine with no code recorded, and does nothing else to it
(R87, R174): the checks never reach the phase (R173). -/
theorem step_command_of_not_legal {s : State} {k : Nat} (c : Command) {rest : List Input} {e : Engine}
    (hlegal : legal c.cmd = false) (hin : s.inputs = .command k c :: rest) (hk : s.engineAt k = some e)
    (he : e.err = .none) :
    step s = .next (((s.withInputs rest).aim k).setEngine k (e.takeFault .illegalCmd)) := by
  obtain ⟨why, hd⟩ := (exists_decode_eq_illegal_iff c).2 hlegal
  have hrun : Decoded.runOn (decode c) e = .next (e.takeFault .illegalCmd) := hd ▸ runOn_illegal he why
  exact (step_command_eq_next_iff hin).2 ⟨e, _, hk, hrun, rfl⟩

/-- Settles O3, clause by clause: R87's formula, its eleven words, R88's reserved forms, the decoder, and the step. -/
theorem legalAndReservedWords : Obligations.LegalAndReservedWords := by
  intro w din
  refine ⟨legal_iff_fields w, legal_iff_mem w, legal_eq_false_iff_reserved w,
    (exists_decode_eq_illegal_iff { cmd := w, din := din }).symm, ?_⟩
  intro hlegal s k rest e hin hk he
  exact step_command_of_not_legal { cmd := w, din := din } hlegal hin hk he

end Sys2Proof.Machine

/-!
PROOFS. The family of spec/40_datapath.md: compression of one word.
-/

namespace Sys2Proof.Machine

/-- R108's sequence, with `C_ROUNDS` rounds written out. -/
theorem compress_eq_sipRound (l : Lanes) (m : Word) :
    compress l m =
      { sipRound (sipRound { l with v3 := l.v3 ^^^ m }) with
        v0 := (sipRound (sipRound { l with v3 := l.v3 ^^^ m })).v0 ^^^ m } := rfl

/-- R108's corner case: both XORs with the word 0 leave their lane, so only the two rounds remain. -/
theorem compress_zero (l : Lanes) : compress l 0#64 = sipRound (sipRound l) := by
  rw [compress_eq_sipRound, BitVec.xor_zero, BitVec.xor_zero]

/-- R108's worked example: the word `0x0706050403020100` into the lanes of the seed with bytes `0x00` to `0x0f`. -/
theorem compress_worked_example :
    compress (initLanes 0x0f0e0d0c0b0a09080706050403020100#128) 0x0706050403020100#64 =
      { v0 := 0x4a017198de0a59e0#64, v1 := 0x0d52f6f62a4f59a4#64, v2 := 0x634cb3577b01fd3d#64
        v3 := 0xa5224d6f55c7d9c8#64 } := by decide

/-- Settles O23: R108's sequence, its corner case and its worked example. -/
theorem compressionRule : Obligations.CompressionRule :=
  ⟨compress_eq_sipRound, compress_zero, compress_worked_example⟩

end Sys2Proof.Machine

/-!
PROOFS. The family of spec/41_init.md. First the halves of the data operand as words (R83): the word reader on byte lanes
in stream order, bit by bit. Then what INIT leaves of an engine, and the words with OP 1.
-/

namespace Sys2Proof.Machine

section SeedWords

variable (d : Din)

theorem dinBytes_succ (n : Nat) : dinBytes d (n + 1) = dinBytes d n ++ [dinLane d n] := by
  simp [dinBytes, List.range_succ]

theorem take_dinBytes (m n : Nat) : (dinBytes d (m + n)).take m = dinBytes d m := by
  simp [dinBytes, List.range_add]

theorem dinLane_ushiftRight (m i : Nat) : dinLane (d >>> (8 * m)) i = dinLane d (m + i) := by
  ext j hj
  simp [dinLane, Nat.mul_add, Nat.add_assoc]

/-- Past lane `m` the stream goes on with the lanes of the operand shifted down. -/
theorem drop_dinBytes (m n : Nat) : (dinBytes d (m + n)).drop m = dinBytes (d >>> (8 * m)) n := by
  simp [dinBytes, List.range_add, dinLane_ushiftRight]

/-- Read as a word, the lanes in stream order are the operand's own bits (R83, R84): each further lane adds the next
8 of them. -/
theorem getLsbD_le64_dinBytes (n i : Nat) (hn : n ≤ 8) :
    (le64 (dinBytes d n)).getLsbD i = (decide (i < 8 * n) && d.getLsbD i) := by
  induction n with
  | zero => simp [dinBytes]
  | succ n ih =>
    rw [dinBytes_succ, le64_snoc _ _ (by simpa using hn), BitVec.getLsbD_or, ih (by omega), length_dinBytes]
    by_cases hlo : i < 8 * n
    · have hlt : i < 8 * (n + 1) := by omega
      simp [hlo, hlt]
    · obtain ⟨j, rfl⟩ := Nat.exists_eq_add_of_le (Nat.not_lt.1 hlo)
      by_cases hj : j < 8
      · have hlt : 8 * n + j < 64 ∧ j < 64 ∧ 8 * n + j < 8 * (n + 1) := by omega
        simp [dinLane, hj, hlt]
      · have hge : ¬ 8 * n + j < 8 * (n + 1) := by omega
        simp [dinLane, hj, hge]

theorem le64_dinBytes_eight : le64 (dinBytes d 8) = d.extractLsb' 0 64 := by
  ext i hi
  rw [← BitVec.getLsbD_eq_getElem, getLsbD_le64_dinBytes d 8 i le_rfl]
  simp [hi]

theorem seedK0_eq_extractLsb' : seedK0 d = d.extractLsb' 0 64 :=
  (congrArg le64 (take_dinBytes d 8 8)).trans (le64_dinBytes_eight d)

theorem seedK1_eq_extractLsb' : seedK1 d = d.extractLsb' 64 64 :=
  calc seedK1 d = le64 (dinBytes (d >>> 64) 8) := congrArg le64 (drop_dinBytes d 8 8)
    _ = (d >>> 64).extractLsb' 0 64 := le64_dinBytes_eight _
    _ = d.extractLsb' 64 64 := by ext i hi; simp

end SeedWords

section Init

variable {s : State} {e : Engine} (seed : Din)

/-- INIT's lanes from the two halves of `DIN` (R103, R120). -/
theorem initLanes_eq : initLanes seed =
    { v0 := 0x736f6d6570736575#64 ^^^ seed.extractLsb' 0 64
      v1 := 0x646f72616e646f6d#64 ^^^ seed.extractLsb' 64 64
      v2 := 0x6c7967656e657261#64 ^^^ seed.extractLsb' 0 64
      v3 := 0x7465646279746573#64 ^^^ seed.extractLsb' 64 64 } := by
  rw [initLanes, seedK0_eq_extractLsb', seedK1_eq_extractLsb']

theorem exec_init (hk : s.engineAt s.target = some e) (he : e.err = .none) :
    exec (.init seed) s = .next (s.setEngine s.target (e.start seed)) := by
  rw [exec_eq_onTarget]
  exact State.onTarget_of s _ e _ hk (runOn_init he seed)

/-- INIT overwrites every register but `err` (R120): the engine's past is in `err` alone. -/
theorem Engine.start_eq : e.start seed =
    { v0 := some (initLanes seed).v0, v1 := some (initLanes seed).v1
      v2 := some (initLanes seed).v2, v3 := some (initLanes seed).v3
      pending := some 0#64, totalBytes := some 0#64
      phase := .absorb, hashOut := none, hvalid := false, err := e.err } := rfl

end Init

/-- A faulted engine ignores every command (R175). -/
theorem Engine.perform_of_ignored {e : Engine} (he : e.err ≠ .none) (isLegal usesMessage : Bool)
    (act : Engine → Host.Outcome Engine Fault Refusal) : Engine.perform isLegal usesMessage act e = .next e := by
  simp [Engine.perform, (e.check_eq_ignored_iff isLegal usesMessage).2 he]

theorem runOn_of_faulted {e : Engine} (he : e.err ≠ .none) (i : Instr) : Instr.runOn i e = .next e := by
  cases i with
  | init seed => exact Engine.perform_of_ignored he _ _ fun x => .next (x.start seed)
  | append bs => exact Engine.perform_of_ignored he _ _ _
  | final => exact Engine.perform_of_ignored he _ _ _

theorem exec_of_faulted {s : State} {e : Engine} (hk : s.engineAt s.target = some e) (he : e.err ≠ .none) (i : Instr) :
    exec i s = .next s := by
  rw [exec_eq_onTarget, State.onTarget_of s _ e e hk (runOn_of_faulted he i), State.setEngine_self s _ e hk]

/-- `0x0001` is the only legal word with OP 1 (R87): its LEN and RSV are then 0. -/
theorem legal_eq_false_of_op_one {c : Command} (hop : c.op = 1#4) (hne : c.cmd ≠ 0x0001#16) :
    legal c.cmd = false := by
  have hop' : c.cmd.toNat % 16 = 1 := by simp [← Command.op_toNat, hop]
  have hne' : c.cmd.toNat ≠ 1 := fun h => hne (BitVec.eq_of_toNat_eq h)
  rw [legal_eq_false_iff_reserved]
  omega

/-- Settles O11: the seeded engine of an accepted INIT, the ignored INIT, and the other words with OP 1. -/
theorem initEffect : Obligations.InitEffect := by
  refine ⟨?_, ?_, ?_⟩
  · intro seed s e hk he
    rw [exec_init seed hk he, Engine.start_eq, initLanes_eq, he]
  · intro seed s e hk he
    exact exec_of_faulted hk he (.init seed)
  · intro c k s rest e hop hne hin hk he
    exact step_command_of_not_legal c (legal_eq_false_of_op_one hop hne) hin hk he

end Sys2Proof.Machine

/-!
PROOFS. The family of spec/42_append.md: the empty append, and the lanes a command does not read. A step sees its command
through the decoder alone, so R139 and R85 come down to what the decoder reads of the data operand.
-/

namespace Sys2Proof.Machine

section EmptyAppend

theorem absorbAligned_nil (m : Message) : absorbAligned m [] = m := by
  simp [absorbAligned, bulk_lt]

/-- With a word begun or not, no byte completes or extends it (R135). -/
theorem absorb_nil (m : Message) : absorb m [] = m := by
  by_cases hr : m.total.toNat % 8 = 0
  · simp [absorb, hr, absorbAligned_nil]
  · have hlt : m.total.toNat % 8 < 8 := Nat.mod_lt _ (by decide)
    simp [absorb, hr, drain, hlt]

variable {s : State} {e : Engine} (hk : s.engineAt s.target = some e)
include hk

theorem exec_of_runOn {i : Instr} {e' : Engine} (hrun : Instr.runOn i e = .next e') :
    exec i s = .next (s.setEngine s.target e') := by
  rw [exec_eq_onTarget]
  exact State.onTarget_of s _ e e' hk hrun

theorem exec_append_nil_absorb {m : Message} (he : e.err = .none) (hp : e.phase = .absorb) (hm : e.message = some m) :
    exec (.append []) s = .next s := by
  rw [exec_of_runOn hk (runOn_append_absorb he rfl hp hm), absorb_nil, e.setMessage_self m hm,
    State.setEngine_self s _ e hk]

end EmptyAppend

/-- Settles O26: `Absorb` of no byte, then the empty APPEND phase by phase. -/
theorem emptyAppend : Obligations.EmptyAppend := by
  refine ⟨absorb_nil, fun s e hk he => ⟨?absorb, ?idle, ?done⟩⟩
  case absorb =>
    intro m hp hm
    exact exec_append_nil_absorb hk he hp hm
  case idle =>
    intro hp
    exact exec_of_runOn hk (runOn_idle he (by simp) rfl hp)
  case done =>
    intro hp
    exact exec_of_runOn hk (runOn_done he (by simp) rfl hp)

section UnreadLanes

variable {c d : Command}

theorem dinBytes_congr {x y : Din} {n : Nat} (h : ∀ j < n, dinLane x j = dinLane y j) : dinBytes x n = dinBytes y n :=
  List.map_congr_left fun j hj => h j (List.mem_range.1 hj)

/-- Of an APPEND the decoder reads the command word and the lanes below LEN (R84, R89). -/
theorem decode_append_congr (hop : c.op = 0x2#4) (hcmd : c.cmd = d.cmd)
    (hlanes : ∀ j < c.len.toNat, dinLane c.din j = dinLane d.din j) : decode c = decode d := by
  have hop' : d.op = 0x2#4 := by rw [← hop, Command.op, Command.op, hcmd]
  have hlen : d.len = c.len := by rw [Command.len, Command.len, hcmd]
  have hrsv : d.rsv = c.rsv := by rw [Command.rsv, Command.rsv, hcmd]
  simp [decode, hop, hop', hlen, hrsv, dinBytes_congr hlanes]

/-- FINAL's word decodes without a look at the data operand (R85, R89). -/
theorem decode_final (x : Din) : decode { cmd := 0x0003#16, din := x } = .instr .final := by
  simp [decode, Command.rsv, Command.op, Command.len]

/-- Commands that decode to the same take every state to the same outcome, stops included. -/
theorem step_congr_of_decode (h : decode c = decode d) (k : Nat) (s : State) (rest : List Input) :
    step (s.withInputs (.command k c :: rest)) = step (s.withInputs (.command k d :: rest)) := by
  have hperform : performCommand k c (s.withInputs rest) = performCommand k d (s.withInputs rest) := by
    rw [performCommand_eq_onTarget, performCommand_eq_onTarget, h]
  exact hperform

end UnreadLanes

/-- Settles O6: the commands compared decode to the same instruction, or to the same reserved form. -/
theorem unreadLanesNeverMatter : Obligations.UnreadLanesNeverMatter := by
  constructor
  · intro c d hop hcmd hlanes
    exact step_congr_of_decode (decode_append_congr hop hcmd hlanes)
  · intro x y
    exact step_congr_of_decode ((decode_final x).trans (decode_final y).symm)

end Sys2Proof.Machine

/-!
PROOFS. The family of spec/43_finalize.md. A final block is read byte by byte: the bytes of the word reader, what a
freshly seeded accumulator holds after any message, and where the shifted count lies.
-/

namespace Sys2Proof.Machine

section WordBytes

theorem wordByte_or (x y : Word) (j : Nat) : wordByte (x ||| y) j = wordByte x j ||| wordByte y j :=
  BitVec.extractLsb'_or

/-- The first byte and the rest of a word do not overlap, so the sum of R100 is their OR. -/
theorem le64_cons_or (c : Byte) (cs : List Byte) : le64 (c :: cs) = c.setWidth 64 ||| le64 cs <<< 8 := by
  rw [le64_cons]
  apply BitVec.add_eq_or_of_and_eq_zero
  apply BitVec.eq_of_getLsbD_eq
  intro i hi
  by_cases hlow : i < 8
  · simp [hlow]
  · simp [BitVec.getLsbD_of_ge c i (by omega)]

theorem wordByte_le64_cons_zero (c : Byte) (cs : List Byte) : wordByte (le64 (c :: cs)) 0 = c := by
  apply BitVec.eq_of_getLsbD_eq
  intro i hi
  have hlt : i < 64 := by omega
  simp [le64_cons_or, wordByte, hi, hlt]

theorem wordByte_le64_cons_succ (c : Byte) (cs : List Byte) {j : Nat} (hj : j + 1 < 8) :
    wordByte (le64 (c :: cs)) (j + 1) = wordByte (le64 cs) j := by
  apply BitVec.eq_of_getLsbD_eq
  intro i hi
  have hbit : 8 * (j + 1) + i = 8 + (8 * j + i) := by omega
  have hlt : 8 + (8 * j + i) < 64 ∧ 8 * j + i < 64 := by omega
  simp [le64_cons_or, wordByte, hbit, hlt, BitVec.getLsbD_eq_getElem]

/-- Byte `j` of the word read from a list is the list's byte `j`, and 0 past its end (R67, R100). -/
theorem wordByte_le64 (bs : List Byte) {j : Nat} (hj : j < 8) : wordByte (le64 bs) j = bs.getD j 0#8 := by
  induction bs generalizing j with
  | nil => simp [wordByte]
  | cons c cs ih =>
    cases j with
    | zero => rw [wordByte_le64_cons_zero, List.getD_cons_zero]
    | succ j => rw [wordByte_le64_cons_succ c cs hj, ih (by omega), List.getD_cons_succ]

end WordBytes

section StreamTail

theorem length_streamTail (bs : List Byte) : (streamTail bs).length = bs.length % 8 := by
  rw [streamTail, List.length_drop]
  omega

theorem streamTail_getD (bs : List Byte) (j : Nat) :
    (streamTail bs).getD j 0#8 = bs.getD (bs.length - bs.length % 8 + j) 0#8 := by
  have hstart : 8 * (bs.length / 8) = bs.length - bs.length % 8 := by omega
  simp [streamTail, hstart, List.getD_eq_getElem?_getD]

theorem streamTail_getD_of_ge (bs : List Byte) {j : Nat} (hj : bs.length % 8 ≤ j) :
    (streamTail bs).getD j 0#8 = 0#8 :=
  List.getD_eq_default _ _ (by rwa [length_streamTail])

theorem streamTail_drop_eight (bs : List Byte) (h : 8 ≤ bs.length) : streamTail (bs.drop 8) = streamTail bs := by
  have hsplit : 8 + 8 * ((bs.length - 8) / 8) = 8 * (bs.length / 8) := by omega
  rw [streamTail, List.length_drop, List.drop_drop, hsplit, streamTail]

end StreamTail

section PendingAfterTheMessage

/-- The bulk words leave the stream's tail (R133, R136). -/
theorem bulk_rest (l : Lanes) (bs : List Byte) : (bulk l bs).2 = streamTail bs := by
  induction hn : bs.length using Nat.strong_induction_on generalizing l bs with
  | _ n ih =>
    by_cases h : bs.length < 8
    · simp [bulk_lt l bs h, streamTail, Nat.div_eq_of_lt h]
    · have hge : 8 ≤ bs.length := by omega
      have hshorter : (bs.drop 8).length < n := by rw [List.length_drop]; omega
      rw [bulk_ge l bs hge, ih _ hshorter _ _ rfl, streamTail_drop_eight bs hge]

theorem absorbAligned_pending (m : Message) (bs : List Byte) (hp : m.pending = 0#64) :
    (absorbAligned m bs).pending = le64 (streamTail bs) := by
  simp only [absorbAligned, bulk_rest]
  split
  · next hnil => rw [hnil, hp, le64_nil]
  · rfl

/-- A word-aligned accumulator with nothing pending keeps the tail of what it absorbs. -/
theorem absorb_pending_of_aligned (m : Message) (bs : List Byte) (hr : m.total.toNat % 8 = 0) (hp : m.pending = 0#64) :
    (absorb m bs).pending = le64 (streamTail bs) := by
  rw [absorb, if_pos hr]
  exact absorbAligned_pending _ bs hp

theorem absorb_initMessage_pending (seed : Din) (msg : List Byte) :
    (absorb (initMessage seed) msg).pending = le64 (streamTail msg) :=
  absorb_pending_of_aligned (initMessage seed) msg rfl rfl

theorem absorb_initMessage_total (seed : Din) (msg : List Byte) :
    (absorb (initMessage seed) msg).total = BitVec.ofNat 64 msg.length := by
  rw [absorb_total, initMessage, BitVec.zero_add]

end PendingAfterTheMessage

section FinalBlockBytes

/-- The shift of R151 keeps only the low 8 bits of the count (R154). -/
theorem shiftLeft_lengthByte_congr {x y : Word} (h : x.toNat % 256 = y.toNat % 256) : x <<< 56 = y <<< 56 := by
  apply BitVec.eq_of_toNat_eq
  simp only [BitVec.toNat_shiftLeft, Nat.shiftLeft_eq]
  omega

theorem wordByte_shiftLeft_of_lt (x : Word) {j : Nat} (hj : j < 7) : wordByte (x <<< 56) j = 0#8 := by
  ext i hi
  have hlow : 8 * j + i < 56 := by omega
  simp [wordByte, hlow]

theorem wordByte_shiftLeft_seven (x : Word) : wordByte (x <<< 56) 7 = x.setWidth 8 := by
  apply BitVec.eq_of_getLsbD_eq
  intro i hi
  have hbyte : 56 + i < 64 ∧ i < 64 := by omega
  simp [wordByte, hbyte, BitVec.getLsbD_eq_getElem]

variable (m : Message)

/-- Below byte 7 the final block is `pending` (R151). -/
theorem wordByte_finalBlock_of_lt {j : Nat} (hj : j < 7) : wordByte (finalBlock m) j = wordByte m.pending j := by
  rw [finalBlock, wordByte_or, wordByte_shiftLeft_of_lt m.total hj, BitVec.or_zero]

/-- At most 7 bytes pending leave byte 7 to the count (R151, R33). -/
theorem wordByte_finalBlock_seven (h : wordByte m.pending 7 = 0#8) :
    wordByte (finalBlock m) 7 = m.total.setWidth 8 := by
  rw [finalBlock, wordByte_or, h, wordByte_shiftLeft_seven, BitVec.zero_or]

end FinalBlockBytes

/-- Settles O33: the counts are shifted to the same length byte, and the sequence reads the count in the final block
alone. -/
theorem onlyTheLengthByteCounts : Obligations.OnlyTheLengthByteCounts := by
  intro m m' hlanes hpending htotal
  have hblock : finalBlock m = finalBlock m' := by
    rw [finalBlock, finalBlock, hpending, shiftLeft_lengthByte_congr htotal]
  have hfinal : finalizeLanes m = finalizeLanes m' := by
    rw [finalizeLanes, finalizeLanes, hlanes, hblock]
  exact ⟨hblock, hfinal, congrArg foldLanes hfinal⟩

section TrailingBytes

variable (seed : Din) (msg : List Byte)

/-- Below byte 7 the final block holds the message's tail in stream order, and zeros past it. -/
theorem wordByte_finalBlock_message {j : Nat} (hj : j < 7) :
    wordByte (finalBlock (absorb (initMessage seed) msg)) j = (streamTail msg).getD j 0#8 := by
  rw [wordByte_finalBlock_of_lt _ hj, absorb_initMessage_pending, wordByte_le64 _ (by omega)]

theorem wordByte_finalBlock_message_seven :
    wordByte (finalBlock (absorb (initMessage seed) msg)) 7 = BitVec.ofNat 8 msg.length := by
  have hfree : wordByte (absorb (initMessage seed) msg).pending 7 = 0#8 := by
    rw [absorb_initMessage_pending, wordByte_le64 _ (by decide), streamTail_getD_of_ge msg (by omega)]
  rw [wordByte_finalBlock_seven _ hfree, absorb_initMessage_total, BitVec.setWidth_ofNat_of_le (by decide)]

/-- A message of whole words leaves nothing pending: its final block is the length byte alone. -/
theorem finalBlock_message_of_whole_words (ht : msg.length % 8 = 0) :
    (absorb (initMessage seed) msg).pending = 0#64 ∧
      finalBlock (absorb (initMessage seed) msg) = BitVec.ofNat 64 (msg.length % 256) <<< 56 := by
  have htail : streamTail msg = [] := List.eq_nil_of_length_eq_zero ((length_streamTail msg).trans ht)
  have hpending : (absorb (initMessage seed) msg).pending = 0#64 := by
    rw [absorb_initMessage_pending, htail, le64_nil]
  refine ⟨hpending, ?_⟩
  rw [finalBlock, hpending, absorb_initMessage_total, BitVec.zero_or]
  apply shiftLeft_lengthByte_congr
  simp only [BitVec.toNat_ofNat]
  omega

end TrailingBytes

/-- Settles O34: the bytes of the final block come from the message's tail and from the count. -/
theorem trailingBytesOfTheFinalBlock : Obligations.TrailingBytesOfTheFinalBlock := by
  refine fun seed msg => ⟨finalBlock_message_of_whole_words seed msg, fun _ => ⟨?tail, ?zeros, ?lengthByte⟩⟩
  case tail =>
    intro j hj
    rw [wordByte_finalBlock_message seed msg (by omega), streamTail_getD]
  case zeros =>
    intro j hge hlt
    rw [wordByte_finalBlock_message seed msg hlt, streamTail_getD_of_ge msg hge]
  case lengthByte => exact wordByte_finalBlock_message_seven seed msg

/-- R152's sequence, with `D_ROUNDS` rounds written out. -/
theorem finalizeLanes_eq_sipRound (m : Message) :
    finalizeLanes m =
      sipRound (sipRound (sipRound (sipRound
        { compress m.lanes (finalBlock m) with v2 := (compress m.lanes (finalBlock m)).v2 ^^^ 0xff#64 }))) := rfl

/-- Settles O31: the four rounds of the sequence written out, and the value as the fold of the lanes they leave. -/
theorem finalizationSequence : Obligations.FinalizationSequence :=
  fun m => ⟨finalizeLanes_eq_sipRound m, congrArg foldLanes (finalizeLanes_eq_sipRound m)⟩

end Sys2Proof.Machine

/-!
PROOFS. The family of spec/60_exceptions.md. First R173's two kinds of legal command, those with a phase check and INIT,
told apart by OP; then what each check, and a command that passes them all, leaves in `err`.
-/

namespace Sys2Proof.Machine

section OpOfADecodedCommand

variable {c : Command} {i : Instr}

theorem exists_decode_of_legal (hlegal : legal c.cmd = true) : ∃ i, decode c = .instr i := by
  cases hd : decode c with
  | instr i => exact ⟨i, rfl⟩
  | illegal why => simp [(exists_decode_eq_illegal_iff c).1 ⟨why, hd⟩] at hlegal

/-- OP tells INIT from the two commands that have the phase checks (R89, R173). -/
theorem op_cases_of_decode (hd : decode c = .instr i) :
    (c.op = 0x1#4 ∧ ∃ seed, i = .init seed) ∨ ((c.op = 0x2#4 ∨ c.op = 0x3#4) ∧ ∀ seed, i ≠ .init seed) := by
  unfold decode at hd
  split_ifs at hd with _ hinit _ happend _ hfinal <;> cases hd
  · exact .inl ⟨hinit, _, rfl⟩
  · exact .inr ⟨.inl happend, by simp⟩
  · exact .inr ⟨.inr hfinal, by simp⟩

theorem exists_eq_init_of_op (hd : decode c = .instr i) (hop : c.op = 0x1#4) : ∃ seed, i = .init seed := by
  obtain ⟨-, hi⟩ | ⟨hop', -⟩ := op_cases_of_decode hd
  · exact hi
  · simp [hop] at hop'

theorem ne_init_of_op (hd : decode c = .instr i) (hop : c.op = 0x2#4 ∨ c.op = 0x3#4) (seed : Din) : i ≠ .init seed := by
  obtain ⟨hop', -⟩ | ⟨-, hi⟩ := op_cases_of_decode hd
  · simp [hop'] at hop
  · exact hi seed

end OpOfADecodedCommand

/-- R175's check comes before the others, legality too. -/
theorem decoded_runOn_of_faulted {e : Engine} (he : e.err ≠ .none) (d : Decoded) : Decoded.runOn d e = .next e := by
  cases d with
  | instr i => exact runOn_of_faulted he i
  | illegal why => exact Engine.perform_of_ignored he false false .next

section ErrAfterACommand

variable {e e' : Engine} (he : e.err = .none)
include he

/-- A legal APPEND or FINAL in ABSORB passes every check, so what it leaves is its effect on a message (R173). -/
theorem exists_effect_of_perform_absorb {isLegal : Bool} {f : Engine → Message → Engine} (hlegal : isLegal = true)
    (hp : e.phase = .absorb) (hrun : Engine.perform isLegal true (fun x => x.onMessage (f x)) e = .next e') :
    ∃ m, f e m = e' := by
  have hpasses : e.check isLegal true = .accepted := (e.check_eq_accepted_iff _ _).2 ⟨he, hlegal, fun _ => hp⟩
  rw [Engine.perform_of_accepted _ hpasses, Engine.onMessage_eq_next_iff] at hrun
  obtain ⟨m, -, hm⟩ := hrun
  exact ⟨m, hm⟩

/-- A command that passes every check leaves `err` 0: no command's own effect writes it. -/
theorem err_of_runOn_absorb {i : Instr} (hwf : i.wellFormed = true) (hp : e.phase = .absorb)
    (hrun : Instr.runOn i e = .next e') : e'.err = .none := by
  cases i with
  | init seed =>
    cases (runOn_init he seed).symm.trans hrun
    exact he
  | append bs =>
    obtain ⟨m, rfl⟩ := exists_effect_of_perform_absorb (f := fun x m => x.setMessage (absorb m bs)) he hwf hp hrun
    exact he
  | final =>
    obtain ⟨m, rfl⟩ := exists_effect_of_perform_absorb (f := fun x m => x.finish m) he hwf hp hrun
    exact he

/-- The only way a command leaves a code in `err` is R174's fault entry: its own effect keeps `err`. -/
theorem eq_takeFault_of_runOn {d : Decoded} (hrun : Decoded.runOn d e = .next e') (he' : e'.err ≠ .none) :
    e' = e.takeFault e'.err := by
  cases d with
  | illegal why =>
    cases (runOn_illegal he why).symm.trans hrun
    rfl
  | instr i =>
    obtain ⟨hne, -⟩ | ⟨-, code, -, rfl⟩ | ⟨-, seed, -, rfl⟩ | ⟨-, -, m, -, ⟨bs, -, -, rfl⟩ | ⟨-, rfl⟩⟩ :=
      runOn_cases i e e' hrun
    · exact absurd he hne
    · rfl
    all_goals exact absurd he he'

end ErrAfterACommand

/-- The addressed engine before and after a step on a command are related by what the command does to one engine. -/
theorem runOn_of_engines_of_step_command {s t : State} {k : Nat} {c : Command} {rest : List Input} {e e' : Engine}
    (hin : s.inputs = .command k c :: rest) (hstep : step s = .next t) (hk : s.engineAt k = some e)
    (hk' : t.engineAt k = some e') : Decoded.runOn (decode c) e = .next e' := by
  obtain ⟨x, x', hx, hrun, hx'⟩ := runOn_of_step_command hin hstep
  cases hk.symm.trans hx
  cases hk'.symm.trans hx'
  exact hrun

/-- Settles O40, one check of R173's chain at a time; a command that passes them all is INIT, or finds ABSORB. -/
theorem faultPriority : Obligations.FaultPriority := by
  intro s k c rest e hin hk
  have answers {e' : Engine} (hrun : Decoded.runOn (decode c) e = .next e') :
      step s = .next (((s.withInputs rest).aim k).setEngine k e') :=
    (step_command_eq_next_iff hin).2 ⟨e, e', hk, hrun, rfl⟩
  dsimp only
  by_cases hfaulted : e.err ≠ .none
  · rw [if_pos hfaulted, answers (decoded_runOn_of_faulted hfaulted _), State.setEngine_self _ k e (by simpa using hk)]
  rw [if_neg hfaulted]
  have he : e.err = .none := not_not.1 hfaulted
  by_cases hillegal : legal c.cmd = false
  · rw [if_pos hillegal]
    exact step_command_of_not_legal c hillegal hin hk he
  rw [if_neg hillegal]
  obtain ⟨i, hd⟩ := exists_decode_of_legal (by simpa using hillegal)
  have hwf : i.wellFormed = true := wellFormed_of_decode hd
  rw [hd] at answers
  split_ifs with hidle hdone hinit
  · exact answers (runOn_idle he (ne_init_of_op hd hidle.1) hwf hidle.2)
  · exact answers (runOn_done he (ne_init_of_op hd hdone.1) hwf hdone.2)
  · obtain ⟨seed, rfl⟩ := exists_eq_init_of_op hd hinit
    exact ⟨e.start seed, answers (runOn_init he seed), he, rfl⟩
  · intro t e' hstep ht
    have hop : c.op = 0x2#4 ∨ c.op = 0x3#4 := (op_cases_of_decode hd).elim (fun h => absurd h.1 hinit) And.left
    have hp : e.phase = .absorb := by
      cases hp : e.phase with
      | idle => exact absurd ⟨hop, hp⟩ hidle
      | absorb => rfl
      | done => exact absurd ⟨hop, hp⟩ hdone
    have hrun : Decoded.runOn (decode c) e = .next e' := runOn_of_engines_of_step_command hin hstep hk ht
    rw [hd] at hrun
    exact err_of_runOn_absorb he hwf hp hrun

/-- Settles O41: the code comes from the fault entry alone, and a command reaches no other engine. -/
theorem faultsArePrecise : Obligations.FaultsArePrecise := by
  intro s t k c rest e e' hin hstep hk hk' he he'
  have hrun : Decoded.runOn (decode c) e = .next e' := runOn_of_engines_of_step_command hin hstep hk hk'
  exact ⟨eq_takeFault_of_runOn he hrun he', fun j hj => step_command_engineAt_other hin hstep hj⟩

end Sys2Proof.Machine

/-!
PROOFS. The accumulator of spec/42_append.md as a cut of a byte stream (R131 to R138): the bytes it holds followed by
the bytes it absorbs are compressed word by word, and the tail is held again.
-/

namespace Sys2Proof.Machine

section StreamCut

theorem streamWords_of_ge (bs : List Byte) (h : 8 ≤ bs.length) :
    streamWords bs = le64 (bs.take 8) :: streamWords (bs.drop 8) := by
  simp [streamWords, pieces_ge bs h, h]

theorem streamWords_of_lt (bs : List Byte) (h : bs.length < 8) : streamWords bs = [] := by
  rw [streamWords, pieces_lt bs h]
  split_ifs <;> simp [Nat.ne_of_lt h]

theorem streamTail_of_lt (bs : List Byte) (h : bs.length < 8) : streamTail bs = bs := by
  simp [streamTail, Nat.div_eq_of_lt h]

/-- A stream that goes on: its words are those complete before, then those that begin in the old tail. -/
theorem stream_append (xs ys : List Byte) :
    streamWords (xs ++ ys) = streamWords xs ++ streamWords (streamTail xs ++ ys) ∧
      streamTail (xs ++ ys) = streamTail (streamTail xs ++ ys) := by
  induction hn : xs.length using Nat.strong_induction_on generalizing xs with
  | _ n ih =>
    by_cases h : xs.length < 8
    · simp [streamWords_of_lt xs h, streamTail_of_lt xs h]
    · have hge : 8 ≤ xs.length := by omega
      have hge' : 8 ≤ (xs ++ ys).length := by rw [List.length_append]; omega
      have hshorter : (xs.drop 8).length < n := by rw [List.length_drop]; omega
      obtain ⟨hwords, htail⟩ := ih _ hshorter _ rfl
      rw [streamTail_drop_eight xs hge] at hwords htail
      constructor
      · rw [streamWords_of_ge _ hge', List.take_append_of_le_length hge, List.drop_append_of_le_length hge, hwords,
          streamWords_of_ge xs hge, List.cons_append]
      · rw [← streamTail_drop_eight _ hge', List.drop_append_of_le_length hge, htail]

theorem bulk_lanes (l : Lanes) (bs : List Byte) : (bulk l bs).1 = (streamWords bs).foldl compress l := by
  induction hn : bs.length using Nat.strong_induction_on generalizing l bs with
  | _ n ih =>
    by_cases h : bs.length < 8
    · rw [bulk_lt l bs h, streamWords_of_lt bs h, List.foldl_nil]
    · have hge : 8 ≤ bs.length := by omega
      have hshorter : (bs.drop 8).length < n := by rw [List.length_drop]; omega
      rw [bulk_ge l bs hge, ih _ hshorter _ _ rfl, streamWords_of_ge bs hge, List.foldl_cons]

theorem absorbAligned_eq (m : Message) (bs : List Byte) (hp : m.pending = 0#64) :
    absorbAligned m bs =
      { m with lanes := (streamWords bs).foldl compress m.lanes, pending := le64 (streamTail bs) } := by
  rw [← absorbAligned_pending m bs hp, ← bulk_lanes]
  rfl

end StreamCut

/-- `pending` holds exactly the bytes `q`, as many as are counted beyond the last complete word (R33). -/
def Message.Holds (m : Message) (q : List Byte) : Prop := q.length = m.total.toNat % 8 ∧ m.pending = le64 q

section HeldBytes

variable {m : Message} {q : List Byte}

theorem Message.Holds.length_lt (h : m.Holds q) : q.length < 8 := h.1 ▸ Nat.mod_lt _ (by decide)

/-- What `Absorb` gives, path by path: nothing held, a word begun and still short, or a word completed
(R131 to R134). -/
theorem Message.Holds.absorb_eq (h : m.Holds q) (bs : List Byte) :
    absorb m bs =
      { lanes := (streamWords (q ++ bs)).foldl compress m.lanes
        pending := le64 (streamTail (q ++ bs))
        total := m.total + BitVec.ofNat 64 bs.length } := by
  have hlt : q.length < 8 := h.length_lt
  obtain ⟨hlen, hp⟩ := h
  by_cases hr : q.length = 0
  · obtain rfl : q = [] := List.eq_nil_of_length_eq_zero hr
    rw [absorb, if_pos (hlen.symm.trans hr)]
    exact absorbAligned_eq _ bs hp
  · rw [absorb, if_neg (hlen ▸ hr), ← hlen, hp, drain_le64 q bs hlt]
    by_cases hshort : q.length + bs.length < 8
    · have hstill : q.length + min bs.length (8 - q.length) < 8 := by omega
      have hsum : (q ++ bs).length < 8 := by rwa [List.length_append]
      rw [streamWords_of_lt _ hsum, streamTail_of_lt _ hsum, List.foldl_nil]
      simp only [hstill, if_true, List.take_of_length_le (show bs.length ≤ 8 - q.length by omega)]
    · have hfull : ¬ q.length + min bs.length (8 - q.length) < 8 := by omega
      have hge : 8 ≤ (q ++ bs).length := by rw [List.length_append]; omega
      have htake : (q ++ bs).take 8 = q ++ bs.take (8 - q.length) := by
        rw [List.take_append, List.take_of_length_le hlt.le]
      have hdrop : (q ++ bs).drop 8 = bs.drop (8 - q.length) := by
        rw [List.drop_append, List.drop_of_length_le hlt.le, List.nil_append]
      rw [streamWords_of_ge _ hge, ← streamTail_drop_eight _ hge, htake, hdrop, List.foldl_cons]
      simp only [hfull, if_false]
      rw [absorbAligned_eq _ _ rfl]

/-- After `Absorb` the accumulator holds the tail of the stream (R137). -/
theorem Message.Holds.after_absorb (h : m.Holds q) (bs : List Byte) : (absorb m bs).Holds (streamTail (q ++ bs)) := by
  refine ⟨?_, by rw [h.absorb_eq]⟩
  have hlen : q.length = m.total.toNat % 8 := h.1
  rw [length_streamTail, List.length_append, absorb_total, BitVec.toNat_add, BitVec.toNat_ofNat]
  omega

theorem Message.Holds.aligned (h : m.Holds q) : m.Aligned := by
  obtain ⟨-, hlt⟩ := le64_toNat q h.length_lt.le
  rwa [← h.2, h.1] at hlt

/-- An accumulator that obeys R33's invariant holds the low bytes of `pending`. -/
theorem Message.Aligned.holds (h : m.Aligned) : m.Holds (dinBytes (m.pending.setWidth 128) (m.total.toNat % 8)) := by
  refine ⟨length_dinBytes _ _, BitVec.eq_of_getLsbD_eq fun i hi => ?_⟩
  rw [getLsbD_le64_dinBytes _ _ _ (by omega), BitVec.getLsbD_setWidth]
  by_cases hlow : i < 8 * (m.total.toNat % 8)
  · simp [hlow, show i < 128 by omega]
  · have hzero : m.pending.getLsbD i = false :=
      Nat.testBit_eq_false_of_lt (lt_of_lt_of_le h (Nat.pow_le_pow_right (by decide) (by omega)))
    simp [hlow, hzero]

theorem Message.Aligned.after_absorb (h : m.Aligned) (bs : List Byte) : (absorb m bs).Aligned :=
  (h.holds.after_absorb bs).aligned

theorem Message.Aligned.absorb_absorb (h : m.Aligned) (a b : List Byte) :
    absorb (absorb m a) b = absorb m (a ++ b) := by
  obtain ⟨hwords, htail⟩ := stream_append (dinBytes (m.pending.setWidth 128) (m.total.toNat % 8) ++ a) b
  rw [(h.holds.after_absorb a).absorb_eq, h.holds.absorb_eq (a ++ b), h.holds.absorb_eq a, ← List.append_assoc, hwords,
    htail, List.foldl_append, List.length_append, BitVec.ofNat_add, BitVec.add_assoc]

theorem Message.Aligned.foldl_absorb (h : m.Aligned) (chunks : List (List Byte)) :
    chunks.foldl absorb m = absorb m chunks.flatten := by
  induction chunks generalizing m with
  | nil => rw [List.foldl_nil, List.flatten_nil, absorb_nil]
  | cons c cs ih => rw [List.foldl_cons, ih (h.after_absorb c), h.absorb_absorb, List.flatten_cons]

end HeldBytes

/-- Settles O24: the premise says that the accumulator holds `q`. -/
theorem absorbCutsTheStream : Obligations.AbsorbCutsTheStream :=
  fun _ _ bs hlen hp => Message.Holds.absorb_eq ⟨hlen, hp⟩ bs

/-- Settles O25: the bytes held between the two lists are the tail of the stream so far; then chunk by chunk. -/
theorem streamingEquivalence : Obligations.StreamingEquivalence :=
  fun _ h => ⟨h.absorb_absorb, h.foldl_absorb⟩

/-- Settles O27: the accumulator holds the tail of the stream again. -/
theorem absorbKeepsTheAccumulatorInvariant : Obligations.AbsorbKeepsTheAccumulatorInvariant :=
  fun _ bs h => h.after_absorb bs

/-- Settles O28: fewer than 16 bytes of the stream are in play, so at most one word completes. -/
theorem workPerAppend : Obligations.WorkPerAppend := by
  intro m q bs hlen hp hbs
  have hq : m.Holds q := ⟨hlen, hp⟩
  have hlt : q.length < 8 := hq.length_lt
  rw [commandRounds, ← hlen, hq.absorb_eq]
  split_ifs with hshort
  · rw [streamWords_of_lt _ (by rwa [List.length_append])]
    exact ⟨rfl, rfl⟩
  · have hge : 8 ≤ (q ++ bs).length := by rw [List.length_append]; omega
    have hrest : ((q ++ bs).drop 8).length < 8 := by rw [List.length_drop, List.length_append]; omega
    rw [streamWords_of_ge _ hge, streamWords_of_lt _ hrest]
    exact ⟨rfl, rfl⟩

/-- Settles O29: both moduli divide 2^64. -/
theorem countOfBytes : Obligations.CountOfBytes := by
  intro m bs
  have htotal : (absorb m bs).total.toNat = (m.total.toNat + bs.length) % 2 ^ 64 := by
    rw [absorb_total, BitVec.toNat_add, BitVec.toNat_ofNat, Nat.add_mod_mod]
  omega

end Sys2Proof.Machine

/-!
PROOFS. The invariant of the platform (R33, R36 to R39, R200): each command keeps the invariant of its engine, and a
step leaves every engine as it was, resets it, or is a command addressed to it.
-/

namespace Sys2Proof.Machine

section EngineInvariant

variable {e e' : Engine}

/-- The invariant of an engine does not speak of `err` (R174). -/
theorem Engine.Inv.takeFault (h : e.Inv) (code : ErrCode) : (e.takeFault code).Inv := h

theorem Engine.inv_start (e : Engine) (seed : Din) : (e.start seed).Inv :=
  ⟨⟨initMessage seed, rfl, Nat.one_pos⟩, rfl, rfl⟩

/-- In ABSORB the invariant is that of the message, with no result (R33, R38, R39). -/
theorem Engine.inv_absorb_iff (hp : e.phase = .absorb) :
    e.Inv ↔ (∃ m, e.message = some m ∧ m.Aligned) ∧ e.hashOut = none ∧ e.hvalid = false := by
  rw [Engine.Inv, hp]

theorem Engine.Inv.aligned {m : Message} (h : e.Inv) (hp : e.phase = .absorb) (hm : e.message = some m) :
    m.Aligned := by
  obtain ⟨⟨m', hm', haligned⟩, -, -⟩ := (Engine.inv_absorb_iff hp).1 h
  cases hm.symm.trans hm'
  exact haligned

theorem Engine.Inv.setMessage {m : Message} (h : e.Inv) (hp : e.phase = .absorb) (hm : m.Aligned) :
    (e.setMessage m).Inv := by
  obtain ⟨-, hresult⟩ := (Engine.inv_absorb_iff hp).1 h
  exact (Engine.inv_absorb_iff (e := e.setMessage m) hp).2 ⟨⟨m, e.message_setMessage m, hm⟩, hresult⟩

/-- FINAL writes the lanes and leaves the accumulator, so the message it leaves is the old one with the final lanes. -/
theorem Engine.message_finish {m : Message} (hm : e.message = some m) :
    (e.finish m).message = some { m with lanes := finalizeLanes m } := by
  obtain ⟨-, -, -, -, hpending, htotal⟩ := (e.message_eq_some_iff m).1 hm
  exact (Engine.message_eq_some_iff _ _).2 ⟨rfl, rfl, rfl, rfl, hpending, htotal⟩

theorem Engine.inv_finish {m : Message} (hm : e.message = some m) (haligned : m.Aligned) : (e.finish m).Inv :=
  ⟨⟨_, Engine.message_finish hm, haligned, rfl⟩, rfl⟩

/-- Every command keeps the invariant of its engine, performed or not. -/
theorem Engine.Inv.runOn {d : Decoded} (h : e.Inv) (hrun : Decoded.runOn d e = .next e') : e'.Inv := by
  cases d with
  | illegal why =>
    obtain ⟨-, rfl⟩ | ⟨-, rfl⟩ := illegal_cases e e' hrun
    · exact h
    · exact h.takeFault _
  | instr i =>
    obtain ⟨-, rfl⟩ | ⟨-, code, -, rfl⟩ | ⟨-, seed, -, rfl⟩ | ⟨-, hp, m, hm, ⟨bs, -, -, rfl⟩ | ⟨-, rfl⟩⟩ :=
      runOn_cases i e e' hrun
    · exact h
    · exact h.takeFault code
    · exact e.inv_start seed
    · exact h.setMessage hp ((h.aligned hp hm).after_absorb bs)
    · exact Engine.inv_finish hm (h.aligned hp hm)

theorem Engine.inv_reset : Engine.reset.Inv := ⟨rfl, rfl, rfl, rfl, rfl, rfl, rfl, rfl⟩

end EngineInvariant

section PlatformInvariant

variable {s t : State}

/-- The invariant of the platform by instance numbers. -/
theorem State.inv_iff : s.Inv ↔ s.engines ≠ [] ∧ ∀ k e, s.engineAt k = some e → e.Inv := by
  refine and_congr_right fun _ => ⟨fun h k e hk => ?_, fun h x hx => ?_⟩
  · obtain ⟨x, hx, rfl⟩ := (s.mem_engines_iff e).2 ⟨k, hk⟩
    exact h x hx
  · obtain ⟨k, hk⟩ := (s.mem_engines_iff x.engine).1 ⟨x, hx, rfl⟩
    exact h k _ hk

/-- Only the engines count: a state with as many of them, each one's invariant kept, meets the invariant too. -/
theorem State.Inv.of_engines (h : s.Inv) (hlen : t.engines.length = s.engines.length)
    (hengines : ∀ k e', t.engineAt k = some e' → ∃ e, s.engineAt k = some e ∧ (e.Inv → e'.Inv)) : t.Inv := by
  obtain ⟨hne, hinv⟩ := State.inv_iff.1 h
  refine State.inv_iff.2 ⟨?_, fun k e' hk' => ?_⟩
  · rwa [← List.length_pos_iff, hlen, List.length_pos_iff]
  · obtain ⟨e, hk, himp⟩ := hengines k e' hk'
    exact himp (hinv k e hk)

end PlatformInvariant

/-- What a step makes of each engine: it stays, it is reset, or the command addressed to it acts on it. -/
theorem engine_of_step {s t : State} {k : Nat} {e' : Engine} (hstep : step s = .next t)
    (hk' : t.engineAt k = some e') :
    ∃ e, s.engineAt k = some e ∧
      (e' = e ∨ (e' = Engine.reset ∧ ∃ rest, s.inputs = .reset :: rest) ∨
        ∃ c rest, s.inputs = .command k c :: rest ∧ Decoded.runOn (decode c) e = .next e') := by
  obtain ⟨-, rfl⟩ | ⟨j, c, rest, hin, -⟩ | ⟨j, rest, x, -, -, rfl⟩ | ⟨j, rest, x, -, -, rfl⟩ | ⟨rest, hin, rfl⟩ :=
    step_cases s t hstep
  · exact ⟨e', hk', .inl rfl⟩
  · by_cases hj : k = j
    · subst hj
      obtain ⟨e, x', hk, hrun, hx'⟩ := runOn_of_step_command hin hstep
      cases hk'.symm.trans hx'
      exact ⟨e, hk, .inr (.inr ⟨c, rest, hin, hrun⟩)⟩
    · exact ⟨e', (step_command_engineAt_other hin hstep hj).symm.trans hk', .inl rfl⟩
  · exact ⟨e', hk', .inl rfl⟩
  · exact ⟨e', hk', .inl rfl⟩
  · rw [State.engineAt_resetAll] at hk'
    obtain ⟨e, hk, rfl⟩ := Option.map_eq_some_iff.1 hk'
    exact ⟨e, hk, .inr (.inl ⟨rfl, rest, hin⟩)⟩

theorem length_engines_of_step {s t : State} (hstep : step s = .next t) : t.engines.length = s.engines.length := by
  obtain ⟨-, rfl⟩ | ⟨k, c, rest, -, h⟩ | ⟨k, rest, e, -, -, rfl⟩ | ⟨k, rest, e, -, -, rfl⟩ | ⟨rest, -, rfl⟩ :=
    step_cases s t hstep
  · rfl
  · obtain ⟨e, e', -, rfl, -⟩ := performCommand_cases k c _ t h
    simp
  all_goals simp

/-- Settles O52: each engine stays, is reset, or is what one command leaves of it. -/
theorem everyStepKeepsTheInvariant : Obligations.EveryStepKeepsTheInvariant := by
  intro s t hinv hstep
  refine hinv.of_engines (length_engines_of_step hstep) fun k e' hk' => ?_
  obtain ⟨e, hk, rfl | ⟨rfl, -⟩ | ⟨c, rest, -, hrun⟩⟩ := engine_of_step hstep hk'
  · exact ⟨_, hk, id⟩
  · exact ⟨e, hk, fun _ => Engine.inv_reset⟩
  · exact ⟨e, hk, fun he => he.runOn hrun⟩

end Sys2Proof.Machine

/-!
PROOFS. Decoder and encoder against each other (spec/30_encoding.md R81 to R92): the decoder's accepting branches as an
equivalence, the fields of an encoded command, and the lanes of a packed operand.
-/

namespace Sys2Proof.Machine

section Decoder

variable (c : Command)

/-- The three accepting branches of R89, each with the fields it asks for. -/
theorem decode_eq_instr_iff (i : Instr) : decode c = .instr i ↔ c.rsv = 0#8 ∧
    ((c.op = 1#4 ∧ c.len = 0#4 ∧ i = .init c.din) ∨
     (c.op = 2#4 ∧ c.len.toNat ≤ 8 ∧ i = .append (dinBytes c.din c.len.toNat)) ∨
     (c.op = 3#4 ∧ c.len = 0#4 ∧ i = .final)) := by
  unfold decode
  by_cases hrsv : c.rsv = 0#8
  · rw [if_neg (not_not.2 hrsv)]
    split_ifs <;> simp [*, eq_comm (a := i)]
  · simp [hrsv]

/-- The fields make up the command word (R81). -/
theorem Command.cmd_eq_of_fields {c d : Command} (hop : c.op = d.op) (hlen : c.len = d.len) (hrsv : c.rsv = d.rsv) :
    c.cmd = d.cmd := by
  have hop' := congrArg BitVec.toNat hop
  have hlen' := congrArg BitVec.toNat hlen
  have hrsv' := congrArg BitVec.toNat hrsv
  simp only [Command.op_toNat, Command.len_toNat, Command.rsv_toNat] at hop' hlen' hrsv'
  apply BitVec.eq_of_toNat_eq
  omega

end Decoder

section PackedLanes

/-- Lane `j` of a packed operand is byte `j` of the list, 0 past its end (R82, R90). -/
theorem dinLane_packDin (bs : List Byte) {j : Nat} (hj : j < 16) : dinLane (packDin bs) j = bs.getD j 0#8 := by
  induction bs generalizing j with
  | nil => simp [dinLane, packDin]
  | cons b bs ih =>
    cases j with
    | zero =>
      apply BitVec.eq_of_getLsbD_eq
      intro i hi
      have hlt : i < 128 := by omega
      simp [dinLane, packDin, hi, hlt]
    | succ j =>
      rw [List.getD_cons_succ, ← ih (by omega)]
      apply BitVec.eq_of_getLsbD_eq
      intro i hi
      have hbit : 8 * (j + 1) + i = 8 + (8 * j + i) := by omega
      have hlt : 8 + (8 * j + i) < 128 ∧ 8 * j + i < 128 := by omega
      simp [dinLane, packDin, hi, hbit, hlt, BitVec.getLsbD_eq_getElem]

theorem getD_dinBytes (d : Din) {n j : Nat} (hj : j < n) : (dinBytes d n).getD j 0#8 = dinLane d j := by
  simp [dinBytes, List.getD_eq_getElem?_getD, hj]

theorem dinBytes_packDin (bs : List Byte) (h : bs.length ≤ 16) : dinBytes (packDin bs) bs.length = bs := by
  apply List.ext_getElem (length_dinBytes _ _)
  intro j hj hj'
  rw [← List.getD_eq_getElem _ 0#8 hj, ← List.getD_eq_getElem _ 0#8 hj', getD_dinBytes _ hj',
    dinLane_packDin bs (by omega)]

end PackedLanes

theorem encode_init_fields (seed : Din) : (encode (.init seed)).rsv = 0#8 ∧ (encode (.init seed)).len = 0#4 :=
  show (0x0001#16).extractLsb' 8 8 = 0#8 ∧ (0x0001#16).extractLsb' 4 4 = 0#4 by decide

/-- The fields of an encoded APPEND (R81, R84, R90). -/
theorem encode_append_fields {bs : List Byte} (h : bs.length ≤ 8) :
    (encode (.append bs)).rsv = 0#8 ∧ (encode (.append bs)).op = 2#4 ∧
      (encode (.append bs)).len = BitVec.ofNat 4 bs.length := by
  have hall : ∀ n ≤ 8, (0x0002#16 ||| (BitVec.ofNat 16 n <<< 4)).extractLsb' 8 8 = 0#8 ∧
      (0x0002#16 ||| (BitVec.ofNat 16 n <<< 4)).extractLsb' 0 4 = 2#4 ∧
      (0x0002#16 ||| (BitVec.ofNat 16 n <<< 4)).extractLsb' 4 4 = BitVec.ofNat 4 n := by decide
  exact hall _ h

/-- Settles O1: the encoder writes the fields that the decoder's branch for the command asks for. -/
theorem decodeOfEncode : Obligations.DecodeOfEncode := by
  intro i hwf
  rw [decode_eq_instr_iff]
  cases i with
  | init seed =>
    obtain ⟨hrsv, hlen⟩ := encode_init_fields seed
    exact ⟨hrsv, .inl ⟨rfl, hlen, rfl⟩⟩
  | append bs =>
    have hl : bs.length ≤ 8 := of_decide_eq_true hwf
    obtain ⟨hrsv, hop, hlen⟩ := encode_append_fields hl
    have hlen' : (encode (.append bs)).len.toNat = bs.length := by
      rw [hlen, BitVec.toNat_ofNat, Nat.mod_eq_of_lt (by omega)]
    refine ⟨hrsv, .inr (.inl ⟨hop, hlen'.symm ▸ hl, ?_⟩)⟩
    rw [hlen', encode, dinBytes_packDin bs (by omega)]
  | final => exact ⟨rfl, .inr (.inr ⟨rfl, rfl, rfl⟩)⟩

/-- The command word of a decoded command is the encoder's (R87: the legal words are the encoder's). -/
theorem encode_cmd_of_decode {c : Command} {i : Instr} (hd : decode c = .instr i) : (encode i).cmd = c.cmd := by
  obtain ⟨hrsv, ⟨hop, hlen, rfl⟩ | ⟨hop, hlen, rfl⟩ | ⟨hop, hlen, rfl⟩⟩ := (decode_eq_instr_iff c i).1 hd
  · obtain ⟨hrsv', hlen'⟩ := encode_init_fields c.din
    exact Command.cmd_eq_of_fields hop.symm (hlen'.trans hlen.symm) (hrsv'.trans hrsv.symm)
  · obtain ⟨hrsv', hop', hlen'⟩ := encode_append_fields (bs := dinBytes c.din c.len.toNat) (by simpa using hlen)
    refine Command.cmd_eq_of_fields (hop'.trans hop.symm) ?_ (hrsv'.trans hrsv.symm)
    rw [hlen', length_dinBytes, BitVec.ofNat_toNat, BitVec.setWidth_eq]
  · exact Command.cmd_eq_of_fields hop.symm hlen.symm hrsv.symm

/-- Settles O2: the fields make up the word, and the lanes below LEN are packed where they stood. -/
theorem encodeOfDecodeRestoresWhatIsRead : Obligations.EncodeOfDecodeRestoresWhatIsRead := by
  intro c i hd
  refine ⟨wellFormed_of_decode hd, encode_cmd_of_decode hd, ?_⟩
  obtain ⟨-, ⟨-, -, rfl⟩ | ⟨-, hlen, rfl⟩ | ⟨-, -, rfl⟩⟩ := (decode_eq_instr_iff c i).1 hd
  · rfl
  · refine ⟨length_dinBytes _ _, fun j hj => ?_⟩
    rw [length_dinBytes] at hj
    rw [encode, dinLane_packDin _ (by omega), getD_dinBytes _ hj]
  · trivial

/-- Settles O4: the fields as numbers pick the decoder's accepting branch, or one of R88's reserved forms. -/
theorem decoderFollowsItsTests : Obligations.DecoderFollowsItsTests := by
  intro c
  have rejects (h : legal c.cmd = false) : ∃ why, decode c = .illegal why := (exists_decode_eq_illegal_iff c).2 h
  have hop (n : Nat) (hn : n < 16) : c.op = BitVec.ofNat 4 n ↔ c.cmd.toNat % 16 = n := by
    rw [← BitVec.toNat_inj, Command.op_toNat, BitVec.toNat_ofNat, Nat.mod_eq_of_lt hn]
  dsimp only
  by_cases hhigh : c.cmd.toNat / 256 ≠ 0
  · rw [if_pos hhigh]
    exact rejects ((legal_eq_false_iff_reserved _).2 (by omega))
  rw [if_neg hhigh]
  have hrsv : c.rsv = 0#8 := BitVec.eq_of_toNat_eq ((Command.rsv_toNat c).trans (not_not.1 hhigh))
  have hlen : c.len.toNat = c.cmd.toNat / 16 := by rw [Command.len_toNat]; omega
  split_ifs with hinit happend hfinal
  · have hlen0 : c.len = 0#4 := BitVec.eq_of_toNat_eq (hlen.trans hinit.2)
    exact (decode_eq_instr_iff c _).2 ⟨hrsv, .inl ⟨(hop 1 (by omega)).2 hinit.1, hlen0, rfl⟩⟩
  · rw [← hlen] at happend ⊢
    exact (decode_eq_instr_iff c _).2 ⟨hrsv, .inr (.inl ⟨(hop 2 (by omega)).2 happend.1, happend.2, rfl⟩)⟩
  · have hlen0 : c.len = 0#4 := BitVec.eq_of_toNat_eq (hlen.trans hfinal.2)
    exact (decode_eq_instr_iff c _).2 ⟨hrsv, .inr (.inr ⟨(hop 3 (by omega)).2 hfinal.1, hlen0, rfl⟩)⟩
  · exact rejects ((legal_eq_false_iff_reserved _).2 (by omega))

/-- Settles O5: the decoder run on each word. -/
theorem decodedWordsOfTheSpec : Obligations.DecodedWordsOfTheSpec := by
  unfold Obligations.DecodedWordsOfTheSpec
  decide

end Sys2Proof.Machine

/-!
PROOFS. The datapath (spec/40_datapath.md): the word reader as a sum of bytes, the seed's bytes in the lanes, rotation
bit by bit, the rounds; then the final block (R151) and the known answers.
-/

namespace Sys2Proof.Machine

section WordReaderSum

/-- Horner's form of a byte list is the sum of R100. -/
theorem foldr_bytes_eq_sum (bs : List Byte) :
    bs.foldr (fun c acc => c.toNat + 256 * acc) 0 =
      ((List.range bs.length).map fun j => (bs.getD j 0#8).toNat * 2 ^ (8 * j)).sum := by
  induction bs with
  | nil => rfl
  | cons c cs ih =>
    have hshift (j : Nat) : ((c :: cs).getD (j + 1) 0#8).toNat * 2 ^ (8 * (j + 1)) =
        256 * ((cs.getD j 0#8).toNat * 2 ^ (8 * j)) := by
      rw [List.getD_cons_succ, Nat.mul_add, pow_add]
      ring
    rw [List.foldr_cons, ih, List.length_cons, List.range_succ_eq_map, List.map_cons, List.map_map, List.sum_cons,
      ← List.sum_map_mul_left]
    simp only [Function.comp_def, Nat.succ_eq_add_one, hshift]
    simp

end WordReaderSum

/-- Settles O18: the sum is Horner's form of the list, and each byte stands at its place. -/
theorem wordReader : Obligations.WordReader := by
  intro bs hlen
  obtain ⟨hvalue, -⟩ := le64_toNat bs hlen
  exact ⟨hvalue.trans (foldr_bytes_eq_sum bs), fun j hj => wordByte_le64 bs hj⟩

/-- Settles O19: the lanes in stream order, read as a word, are the operand's own bits. -/
theorem seedWordsAreTheHalves : Obligations.SeedWordsAreTheHalves :=
  fun seed => ⟨seedK0_eq_extractLsb' seed, seedK1_eq_extractLsb' seed⟩

section SeedBytes

variable (x y : Word) (seed : Din)

theorem wordByte_xor (j : Nat) : wordByte (x ^^^ y) j = wordByte x j ^^^ wordByte y j :=
  BitVec.extractLsb'_xor

/-- Byte `i` of a half of the seed is the seed byte `i` further on from where the half begins (R83). -/
theorem wordByte_seed_half (half : Nat) {i : Nat} (hi : i < 8) :
    wordByte (seed.extractLsb' (8 * half) 64) i = dinLane seed (half + i) := by
  apply BitVec.eq_of_getLsbD_eq
  intro j hj
  have hlt : 8 * i + j < 64 := by omega
  have hbit : 8 * half + (8 * i + j) = 8 * (half + i) + j := by omega
  simp [wordByte, dinLane, hj, hlt, hbit]

end SeedBytes

/-- Settles O13: each lane is a constant XOR a half of the seed, byte by byte. -/
theorem seedBytesReachTheirLanes : Obligations.SeedBytesReachTheirLanes := by
  intro seed i hi
  have hlow : wordByte (seed.extractLsb' 0 64) i = dinLane seed i := by simpa using wordByte_seed_half seed 0 hi
  have hhigh : wordByte (seed.extractLsb' 64 64) i = dinLane seed (8 + i) := wordByte_seed_half seed 8 hi
  simp only [initLanes_eq, wordByte_xor, hlow, hhigh, and_self]

section Rounds

theorem rotl_eq_rotateLeft (x : Word) {n : Nat} (hn : n < 64) : rotl x n = x.rotateLeft n := by
  rw [rotl, BitVec.rotateLeft, BitVec.rotateLeftAux, Nat.mod_eq_of_lt hn]

/-- Settles O20: the bits below the amount come from the top of the word, the others move up. -/
theorem rotlRotates : Obligations.RotlRotates := by
  intro x n i hpos hn hi
  rw [rotl_eq_rotateLeft x (by omega), BitVec.getLsbD_rotateLeft, Nat.mod_eq_of_lt (show n < 64 by omega)]
  by_cases hlow : i < n
  · have hbit : (i + 64 - n) % 64 = 64 - n + i := by omega
    simp [hlow, hbit]
  · have hbit : (i + 64 - n) % 64 = i - n := by omega
    simp [hlow, hbit, hi]

/-- The sum that wraps is the word of the sum (R13). -/
theorem ofNat_toNat_add_toNat (x y : Word) : BitVec.ofNat 64 (x.toNat + y.toNat) = x + y := by
  rw [BitVec.ofNat_add, BitVec.ofNat_toNat, BitVec.ofNat_toNat, BitVec.setWidth_eq, BitVec.setWidth_eq]

/-- Settles O21: the operations name the round's own intermediate words. -/
theorem sipRoundOperations : Obligations.SipRoundOperations := by
  rintro l _ _ _ _ _ _ _ _ _ _ rfl rfl rfl rfl rfl rfl rfl rfl rfl rfl
  simp only [ofNat_toNat_add_toNat, ← rotl_eq_rotateLeft _ (show 13 < 64 by decide),
    ← rotl_eq_rotateLeft _ (show 32 < 64 by decide), ← rotl_eq_rotateLeft _ (show 16 < 64 by decide),
    ← rotl_eq_rotateLeft _ (show 21 < 64 by decide), ← rotl_eq_rotateLeft _ (show 17 < 64 by decide)]
  rfl

/-- Settles O22: each line reads the lanes it writes, and no lane that the other line of its half-round writes. -/
theorem roundIsTwoHalfRounds : Obligations.RoundIsTwoHalfRounds :=
  fun _ => rfl

end Rounds

section FinalBlock

variable (m : Message)

/-- The shift of R151 as a product that wraps. -/
theorem shiftLeft_eq_ofNat_mul (x : Word) (n : Nat) : x <<< n = BitVec.ofNat 64 (x.toNat * 2 ^ n) := by
  apply BitVec.eq_of_toNat_eq
  rw [BitVec.toNat_shiftLeft, Nat.shiftLeft_eq, BitVec.toNat_ofNat]

/-- The shift of R151 keeps the length byte (R154). -/
theorem shiftLeft_eq_shiftLeft_lengthByte (x : Word) : x <<< 56 = (x.extractLsb' 0 8).setWidth 64 <<< 56 := by
  apply shiftLeft_lengthByte_congr
  simp [BitVec.extractLsb'_toNat]

/-- R33's invariant leaves the top byte of `pending` free for the length byte: at most 7 bytes are held. -/
theorem Message.Aligned.wordByte_pending_seven {m : Message} (h : m.Aligned) : wordByte m.pending 7 = 0#8 := by
  have hlt := h.holds.length_lt
  rw [h.holds.2, wordByte_le64 _ (by decide), List.getD_eq_default _ _ (by omega)]

theorem extractLsb'_finalBlock_low : (finalBlock m).extractLsb' 0 56 = m.pending.extractLsb' 0 56 := by
  apply BitVec.eq_of_getLsbD_eq
  intro i hi
  simp [finalBlock, hi]

end FinalBlock

/-- Settles O30: the shift as a product and as the length byte; the invariant frees the byte it goes to. -/
theorem finalBlock_eq_pending_or_lengthByte : Obligations.FinalBlock := by
  intro m
  refine ⟨?_, ?_, fun h => ⟨h.wordByte_pending_seven, ?_, extractLsb'_finalBlock_low m⟩⟩
  · rw [finalBlock, shiftLeft_eq_ofNat_mul]
  · rw [finalBlock, shiftLeft_eq_shiftLeft_lengthByte]
  · exact (wordByte_finalBlock_seven m h.wordByte_pending_seven).trans
      (BitVec.setWidth_eq_extractLsb' (by decide))

/-- Settles O32: the controller's steps are the lines of the finalization sequence, two rounds and then four. -/
theorem finalizationController : Obligations.FinalizationController :=
  fun _ => ⟨rfl, rfl⟩

/-- The source's own example, V1. -/
theorem oneShot_empty_of_the_source :
    oneShot 0x66656463626139383736353433323130#128 [] = BitVec.ofNat 64 12552310112479190712 := by decide

/-- Settles O39: the hash run on each message. -/
theorem knownAnswers : Obligations.KnownAnswers :=
  ⟨oneShot_empty_of_the_source, by decide, by decide⟩

end Sys2Proof.Machine

/-!
PROOFS. INIT, APPEND and FINAL on the addressed engine (spec/41_init.md, spec/42_append.md, spec/43_finalize.md): what
each leaves, and what each leaves alone.
-/

namespace Sys2Proof.Machine

section CommandsInSequence

variable {s : State} {e x : Engine} (hk : s.engineAt s.target = some e)
include hk

/-- A command after one that left the engine `x` overwrites what that one wrote. -/
theorem exec_setEngine {i : Instr} {e' : Engine} (hrun : Instr.runOn i x = .next e') :
    exec i (s.setEngine s.target x) = .next (s.setEngine s.target e') := by
  rw [exec_of_runOn (State.engineAt_setEngine_self s _ e x hk) hrun, State.setEngine_target, State.setEngine_setEngine]

end CommandsInSequence

/-- Settles O12: the second INIT overwrites every register the first wrote. -/
theorem initForgetsTheEngine : Obligations.InitForgetsTheEngine := by
  intro seed seed' s t e hk he ht
  cases (exec_init seed hk he).symm.trans ht
  rw [exec_setEngine hk (runOn_init (e := e.start seed) he seed'), exec_init seed' hk he]
  rfl

/-- A legal word with OP 2 carries at most 8 bytes (R87). -/
theorem legal_eq_false_of_op_two {c : Command} (hop : c.op = 2#4) (h : 8 < c.len.toNat ∨ c.rsv ≠ 0#8) :
    legal c.cmd = false := by
  rw [← Bool.not_eq_true, legal_cmd_iff]
  rintro ⟨hrsv, hform⟩
  have hlen : c.len.toNat ≤ 8 := by simpa [hop] using hform
  exact h.elim (fun hgt => absurd hlen (by omega)) (absurd hrsv)

/-- A legal word with OP 3 has LEN 0 (R87). -/
theorem legal_eq_false_of_op_three {c : Command} (hop : c.op = 3#4) (h : c.len ≠ 0#4 ∨ c.rsv ≠ 0#8) :
    legal c.cmd = false := by
  rw [← Bool.not_eq_true, legal_cmd_iff]
  rintro ⟨hrsv, hform⟩
  have hlen : c.len = 0#4 := by simpa [hop] using hform
  exact h.elim (absurd hlen) (absurd hrsv)

/-- Settles O14, one check of R173 at a time; then the words with OP 2 that are not legal. -/
theorem appendEffect : Obligations.AppendEffect := by
  constructor
  · intro bs s e hk
    refine ⟨fun he => exec_of_faulted hk he _, fun he hl hp => ?idle, fun he hl hp => ?done,
      fun he hl hp m hm => ?absorb⟩
    case idle => exact exec_of_runOn hk (runOn_idle he (by simp) (decide_eq_true hl) hp)
    case done => exact exec_of_runOn hk (runOn_done he (by simp) (decide_eq_true hl) hp)
    case absorb =>
      rw [exec_of_runOn hk (runOn_append_absorb he (decide_eq_true hl) hp hm), ← absorb_total]
      rfl
  · intro c k s rest e hop hform hin hk he
    exact step_command_of_not_legal c (legal_eq_false_of_op_two hop hform) hin hk he

/-- Settles O15, one check of R173 at a time; then the words with OP 3 that are not legal. -/
theorem finalEffect : Obligations.FinalEffect := by
  constructor
  · intro s e hk
    refine ⟨fun he => exec_of_faulted hk he _, fun he hp => ?idle, fun he hp => ?done, fun he hp m hm => ?absorb⟩
    case idle => exact exec_of_runOn hk (runOn_idle he (by simp) rfl hp)
    case done => exact exec_of_runOn hk (runOn_done he (by simp) rfl hp)
    case absorb => exact exec_of_runOn hk (runOn_final_absorb he hp hm)
  · intro c k s rest e hop hform hin hk he
    exact step_command_of_not_legal c (legal_eq_false_of_op_three hop hform) hin hk he

/-- Settles O35: the engine FINAL leaves is in DONE, where the phase check stops APPEND and FINAL, and INIT overwrites
it. -/
theorem finalConsumesTheEngine : Obligations.FinalConsumesTheEngine := by
  intro s t e m hk he hp hm ht
  cases (exec_of_runOn hk (runOn_final_absorb he hp hm)).symm.trans ht
  have hf : (s.setEngine s.target (e.finish m)).engineAt s.target = some (e.finish m) :=
    State.engineAt_setEngine_self s _ e _ hk
  refine ⟨e.finish m, hf, rfl, rfl, rfl, rfl, rfl, fun bs hl => ?append, ?final, fun seed => ?init⟩
  case append => exact exec_of_runOn hf (runOn_done (e := e.finish m) he (by simp) (decide_eq_true hl) rfl)
  case final => exact exec_of_runOn hf (runOn_done (e := e.finish m) he (by simp) rfl rfl)
  case init =>
    rw [exec_setEngine hk (runOn_init (e := e.finish m) he seed), exec_init seed hk he]
    rfl

/-- Settles O16: a command writes one engine and nothing else of the state. -/
theorem commandsTouchOneEngine : Obligations.CommandsTouchOneEngine := by
  intro i s t h
  rw [exec_eq_onTarget, State.onTarget_eq_next_iff] at h
  obtain ⟨e, e', -, -, rfl⟩ := h
  exact ⟨rfl, rfl, rfl, State.length_setEngine _ _ _, fun j => State.issuedAt_setEngine _ _ _ _,
    fun j hj => State.engineAt_setEngine_other _ _ _ _ hj⟩

section EngineFrames

variable {e e' : Engine}

/-- A command with the phase checks leaves all of its engine but `err`, or its effect on the message (R173 to R175). -/
theorem perform_message_cases {isLegal : Bool} {f : Engine → Message → Engine}
    (h : Engine.perform isLegal true (fun x => x.onMessage (f x)) e = .next e') :
    e' = e.takeFault e'.err ∨
    (e.err = .none ∧ e.phase = .absorb ∧ isLegal = true ∧ ∃ m, e.message = some m ∧ e' = f e m) := by
  obtain ⟨-, rfl⟩ | ⟨-, code, -, rfl⟩ | ⟨he, hl, hp, hact⟩ := Engine.perform_cases _ _ _ _ _ h
  · exact .inl rfl
  · exact .inl rfl
  · obtain ⟨m, hm, rfl⟩ := (Engine.onMessage_eq_next_iff _ _ _).1 hact
    exact .inr ⟨he, hp rfl, hl, m, hm, rfl⟩

theorem runOn_append_cases {bs : List Byte} (h : Instr.runOn (.append bs) e = .next e') :
    e' = e.takeFault e'.err ∨ (e.err = .none ∧ e.phase = .absorb ∧ bs.length ≤ 8 ∧
      ∃ m, e.message = some m ∧ e' = e.setMessage (absorb m bs)) :=
  (perform_message_cases (f := fun x m => x.setMessage (absorb m bs)) h).imp_right
    fun ⟨he, hp, hl, hm⟩ => ⟨he, hp, of_decide_eq_true hl, hm⟩

theorem runOn_final_cases (h : Instr.runOn .final e = .next e') :
    e' = e.takeFault e'.err ∨
    (e.err = .none ∧ e.phase = .absorb ∧ ∃ m, e.message = some m ∧ e' = e.finish m) :=
  (perform_message_cases (f := fun x m => x.finish m) h).imp_right fun ⟨he, hp, _, hm⟩ => ⟨he, hp, hm⟩

/-- While no word completes, `Absorb` compresses nothing, whatever `pending` holds (R138). -/
theorem absorb_lanes_of_short (m : Message) (bs : List Byte) (h : m.total.toNat % 8 + bs.length < 8) :
    (absorb m bs).lanes = m.lanes := by
  by_cases hr : m.total.toNat % 8 = 0
  · rw [absorb, if_pos hr, absorbAligned, bulk_lt _ _ (by omega)]
  · obtain ⟨hcount, -⟩ := drain_count m.pending (m.total.toNat % 8) bs (by omega)
    have hstill : (drain m.pending (m.total.toNat % 8) bs).2.1 < 8 := by omega
    rw [absorb, if_neg hr]
    simp only [hstill, if_true]

theorem init_frame {seed : Din} (hrun : Instr.runOn (.init seed) e = .next e') :
    e'.err = e.err ∧ (e.err ≠ .none → e' = e) := by
  by_cases he : e.err = .none
  · cases (runOn_init he seed).symm.trans hrun
    exact ⟨rfl, fun hne => absurd he hne⟩
  · cases (runOn_of_faulted he (.init seed)).symm.trans hrun
    exact ⟨rfl, fun _ => rfl⟩

/-- What APPEND never writes, performed or not. -/
theorem append_frame {bs : List Byte} (hrun : Instr.runOn (.append bs) e = .next e') :
    e'.phase = e.phase ∧ e'.hvalid = e.hvalid ∧ e'.hashOut = e.hashOut ∧
      (bs = [] → e'.pending = e.pending) ∧
      (∀ n, e.totalBytes = some n → n.toNat % 8 + bs.length < 8 →
        e'.v0 = e.v0 ∧ e'.v1 = e.v1 ∧ e'.v2 = e.v2 ∧ e'.v3 = e.v3) := by
  obtain hfault | ⟨-, -, -, m, hm, rfl⟩ := runOn_append_cases hrun
  · rw [hfault]
    exact ⟨rfl, rfl, rfl, fun _ => rfl, fun _ _ _ => ⟨rfl, rfl, rfl, rfl⟩⟩
  · obtain ⟨h0, h1, h2, h3, hpending, htotal⟩ := (e.message_eq_some_iff m).1 hm
    refine ⟨rfl, rfl, rfl, ?_, fun n hn hshort => ?_⟩
    · rintro rfl
      rw [absorb_nil, Engine.setMessage_pending, hpending]
    · cases htotal.symm.trans hn
      simp only [Engine.setMessage_v0, Engine.setMessage_v1, Engine.setMessage_v2, Engine.setMessage_v3,
        absorb_lanes_of_short m bs hshort, h0, h1, h2, h3, and_self]

/-- An APPEND that is not performed leaves all but `err` (R174, R175). -/
theorem append_not_performed {bs : List Byte} (hrun : Instr.runOn (.append bs) e = .next e')
    (hnot : e.err ≠ .none ∨ e.phase ≠ .absorb ∨ 8 < bs.length) : e' = e.takeFault e'.err := by
  obtain hfault | ⟨he, hp, hl, -⟩ := runOn_append_cases hrun
  · exact hfault
  · exact absurd hnot (by simp [he, hp, hl])

theorem final_frame (hrun : Instr.runOn .final e = .next e') :
    e'.pending = e.pending ∧ e'.totalBytes = e.totalBytes := by
  obtain hfault | ⟨-, -, m, -, rfl⟩ := runOn_final_cases hrun
  · rw [hfault]
    exact ⟨rfl, rfl⟩
  · exact ⟨rfl, rfl⟩

/-- A FINAL that is not performed leaves all but `err` (R174, R175). -/
theorem final_not_performed (hrun : Instr.runOn .final e = .next e') (hnot : e.err ≠ .none ∨ e.phase ≠ .absorb) :
    e' = e.takeFault e'.err := by
  obtain hfault | ⟨he, hp, -⟩ := runOn_final_cases hrun
  · exact hfault
  · exact absurd hnot (by simp [he, hp])

/-- The addressed engine before and after a command are related by what the command does to one engine. -/
theorem runOn_of_exec {s t : State} {i : Instr} (hk : s.engineAt s.target = some e)
    (hk' : t.engineAt s.target = some e') (h : exec i s = .next t) : Instr.runOn i e = .next e' := by
  rw [exec_eq_onTarget, State.onTarget_eq_next_iff] at h
  obtain ⟨x, x', hx, hrun, rfl⟩ := h
  cases hk.symm.trans hx
  cases (State.engineAt_setEngine_self s _ e x' hk).symm.trans hk'
  exact hrun

end EngineFrames

/-- Settles O17: the frame of each command on one engine; a command that passes its checks keeps `err` at 0. -/
theorem engineFrames : Obligations.EngineFrames := by
  intro s t e e' hk hk'
  refine ⟨fun seed h => init_frame (runOn_of_exec hk hk' h), fun bs h => ?append, fun h => ?final⟩
  case append =>
    have hrun : Instr.runOn (.append bs) e = .next e' := runOn_of_exec hk hk' h
    obtain ⟨hphase, hvalid, hout, hpending, hlanes⟩ := append_frame hrun
    exact ⟨hphase, hvalid, hout, hpending, hlanes,
      fun he hp hl => (err_of_runOn_absorb (i := .append bs) he (decide_eq_true hl) hp hrun).trans he.symm,
      append_not_performed hrun⟩
  case final =>
    have hrun : Instr.runOn .final e = .next e' := runOn_of_exec hk hk' h
    obtain ⟨hpending, htotal⟩ := final_frame hrun
    exact ⟨hpending, htotal, fun he hp => (err_of_runOn_absorb he rfl hp hrun).trans he.symm, final_not_performed hrun⟩

end Sys2Proof.Machine

/-!
PROOFS. The step on each interaction of the host (spec/60_exceptions.md R186), and what follows for counts, faults, the
ports (spec/10_state.md R38, R43, R44, R47), reset and the invariant.
-/

namespace Sys2Proof.Machine

section StepOnEachInteraction

variable {s : State} {k : Nat} {rest : List Input}

theorem step_waiting (hin : s.inputs = []) : step s = .next s := by
  simp [step, hin, waitForHost]

theorem step_reset (hin : s.inputs = .reset :: rest) : step s = .next (s.withInputs rest).resetAll := by
  simp [step, hin, takeInput]

theorem step_readStatus (hin : s.inputs = .readStatus k :: rest) :
    step s = readPort k (fun e => .status k e.status) (s.withInputs rest) := by
  simp [step, hin, takeInput]

theorem step_readHashOut (hin : s.inputs = .readHashOut k :: rest) :
    step s = readPort k (fun e => .hashOut k e.hashPort) (s.withInputs rest) := by
  simp [step, hin, takeInput]

variable {e : Engine} (hk : s.engineAt k = some e)
include hk

theorem readPort_withInputs (f : Engine → Reading) :
    readPort k f (s.withInputs rest) = .next ((s.withInputs rest).observe (f e)) :=
  (readPort_eq_next_iff k f _ _).2 ⟨e, hk, rfl⟩

theorem step_readStatus_of (hin : s.inputs = .readStatus k :: rest) :
    step s = .next ((s.withInputs rest).observe (.status k e.status)) :=
  (step_readStatus hin).trans (readPort_withInputs hk _)

theorem step_readHashOut_of (hin : s.inputs = .readHashOut k :: rest) :
    step s = .next ((s.withInputs rest).observe (.hashOut k e.hashPort)) :=
  (step_readHashOut hin).trans (readPort_withInputs hk _)

end StepOnEachInteraction

/-- Settles O7: the decoder's answer picks the arm of the command's meaning. -/
theorem stepRunsTheDecodedInstruction : Obligations.StepRunsTheDecodedInstruction := by
  intro s k c rest i hin hd
  rw [step_command hin, performCommand, hd]

/-- Settles O8, one interaction at a time. -/
theorem stepOnTheOtherInteractions : Obligations.StepOnTheOtherInteractions := by
  intro s k rest
  refine ⟨step_waiting, step_reset, fun e hk hin => step_readStatus_of hk hin,
    fun e hk hin => step_readHashOut_of hk hin, fun c why hin hd => ?_⟩
  rw [step_command hin, performCommand, hd]

section Counts

variable {s t : State} {k : Nat} {c : Command} {rest : List Input}

theorem issuedAt_of_step_command (hin : s.inputs = .command k c :: rest) (hstep : step s = .next t) :
    (∃ n, s.issuedAt k = some n ∧ t.issuedAt k = some (n + 1)) ∧ ∀ j ≠ k, t.issuedAt j = s.issuedAt j := by
  obtain ⟨e, e', hk, -, rfl⟩ := (step_command_eq_next_iff hin).1 hstep
  obtain ⟨x, hx, -⟩ := Option.map_eq_some_iff.1 hk
  have hn : s.issuedAt k = some x.issued := by simp [State.issuedAt, hx]
  refine ⟨⟨x.issued, hn, ?_⟩, fun j hj => ?_⟩
  · rw [State.issuedAt_setEngine, State.issuedAt_aim_self]
    exact congrArg (Option.map (· + 1)) hn
  · rw [State.issuedAt_setEngine, State.issuedAt_aim_other _ _ _ hj]
    rfl

theorem State.issuedAt_resetAll (s : State) (j : Nat) : s.resetAll.issuedAt j = s.issuedAt j := by
  simp [State.issuedAt, Function.comp_def]

end Counts

/-- Settles O9: only the step on a command issues anything. -/
theorem commandsAreCounted : Obligations.CommandsAreCounted := by
  intro s t hstep
  refine ⟨fun k c rest hin => issuedAt_of_step_command hin hstep, fun hno j => ?_⟩
  obtain ⟨-, rfl⟩ | ⟨k, c, rest, hin, -⟩ | ⟨k, rest, e, -, -, rfl⟩ | ⟨k, rest, e, -, -, rfl⟩ | ⟨rest, -, rfl⟩ :=
    step_cases s t hstep
  · rfl
  · exact absurd hin (hno k c rest)
  · rfl
  · rfl
  · exact State.issuedAt_resetAll _ j

section CommandsInOrder

open Host (Outcome)

/-- An outcome with the interactions still to come replaced in its next state. -/
def outcomeWithInputs (xs : List Input) : Outcome State Fault Refusal → Outcome State Fault Refusal
  | .next s => .next (s.withInputs xs)
  | .fault r => .fault r
  | .refused r => .refused r

/-- What a command does, and whether it stops, does not depend on the interactions that come after it. -/
theorem performCommand_withInputs (k : Nat) (c : Command) (s : State) (xs : List Input) :
    performCommand k c (s.withInputs xs) = outcomeWithInputs xs (performCommand k c s) := by
  simp only [performCommand_eq_onTarget, State.onTarget, State.aim_target, State.engineAt_aim,
    State.engineAt_withInputs]
  cases s.engineAt k with
  | none => rfl
  | some e =>
    dsimp only
    cases Decoded.runOn (decode c) e <;> rfl

end CommandsInOrder

/-- Settles O10, by induction on the commands: the first step takes the first command, and the run goes on, or stops, as
it says. -/
theorem commandsTakeEffectInOrder : Obligations.CommandsTakeEffectInOrder := by
  intro cs
  induction cs with
  | nil =>
    intro s rest hin
    have hsame : s.withInputs rest = s := by rw [← show s.inputs = rest from hin]; rfl
    exact congrArg Host.Outcome.next hsame.symm
  | cons x xs ih =>
    intro s rest hin
    have hfirst : performCommand x.1 x.2 (s.withInputs rest) = outcomeWithInputs rest (step s) := by
      rw [step_command hin, ← performCommand_withInputs]
      rfl
    rw [performAll, hfirst, List.length_cons]
    cases hstep : step s with
    | next u =>
      rw [run_succ_next _ s u hstep]
      exact ih u rest (by rw [step_inputs s u hstep, hin]; rfl)
    | fault r => exact run_succ_fault _ s r hstep
    | refused r => exact run_succ_refused _ s r hstep

section FaultedEngines

variable {s t : State} {k : Nat} {e : Engine}

/-- A step other than reset leaves a faulted engine as it was (R175). -/
theorem engineAt_of_step_of_faulted (hstep : step s = .next t) (hk : s.engineAt k = some e) (he : e.err ≠ .none)
    (hno : ∀ rest, s.inputs ≠ .reset :: rest) : t.engineAt k = some e := by
  have hlt : k < t.engines.length := by
    rw [length_engines_of_step hstep]
    exact s.engineAt_lt k e hk
  obtain ⟨e', hk'⟩ := t.engineAt_isSome k hlt
  obtain ⟨x, hx, rfl | ⟨-, rest, hin⟩ | ⟨c, rest, -, hrun⟩⟩ := engine_of_step hstep hk'
  · exact hk'.trans (hx.symm.trans hk)
  · exact absurd hin (hno rest)
  · cases hk.symm.trans hx
    cases (decoded_runOn_of_faulted he (decode c)).symm.trans hrun
    exact hk'

theorem run_succ_eq_next {n : Nat} (h : Host.Core.run core (n + 1) s = .next t) :
    ∃ u, step s = .next u ∧ Host.Core.run core n u = .next t := by
  cases hs : step s with
  | next u => exact ⟨u, rfl, (run_succ_next n s u hs).symm.trans h⟩
  | fault r => exact absurd ((run_succ_fault n s r hs).symm.trans h) (by simp)
  | refused r => exact absurd ((run_succ_refused n s r hs).symm.trans h) (by simp)

/-- So does a run in which no reset is taken. -/
theorem engineAt_of_run_of_faulted {n : Nat} (hno : .reset ∉ s.inputs.take n) (hrun : Host.Core.run core n s = .next t)
    (hk : s.engineAt k = some e) (he : e.err ≠ .none) : t.engineAt k = some e := by
  induction n generalizing s with
  | zero =>
    cases hrun
    exact hk
  | succ n ih =>
    obtain ⟨u, hstep, hrest⟩ := run_succ_eq_next hrun
    have hhead (rest : List Input) : s.inputs ≠ .reset :: rest := fun hin => hno (by simp [hin])
    have htail : .reset ∉ u.inputs.take n := by
      rw [step_inputs s u hstep, ← List.drop_one, List.take_drop, Nat.add_comm]
      exact fun hmem => hno (List.mem_of_mem_drop hmem)
    exact ih htail hrest (engineAt_of_step_of_faulted hstep hk he hhead)

end FaultedEngines

/-- Settles O42: no step but reset reaches a faulted engine; reads need none of its checks. -/
theorem faultedEngineStaysFaulted : Obligations.FaultedEngineStaysFaulted := by
  intro s k e hk he
  refine ⟨fun hgood => ?_, fun n t hno hrun => engineAt_of_run_of_faulted hno hrun hk he,
    fun rest hin => ⟨_, step_readStatus_of hk hin, rfl⟩, fun rest hin => ⟨_, step_readHashOut_of hk hin, rfl⟩⟩
  obtain ⟨x, hx, rfl⟩ := (s.mem_engines_iff e).2 ⟨k, hk⟩
  exact he (hgood x hx)

/-- Settles O43: a faulted engine changes by reset alone, and reset leaves the reset engine. -/
theorem onlyResetClearsErr : Obligations.OnlyResetClearsErr := by
  intro s t k e e' hstep hk hk'
  constructor
  · intro he he'
    by_contra hno
    have hsame := engineAt_of_step_of_faulted hstep hk he fun rest hin => hno ⟨rest, hin⟩
    cases hk'.symm.trans hsame
    exact he he'
  · rintro ⟨rest, hin⟩
    cases (step_reset hin).symm.trans hstep
    rw [State.engineAt_resetAll, State.engineAt_withInputs, hk] at hk'
    cases hk'
    rfl

section Status

variable {e : Engine}

theorem Engine.status_eq {p : Phase} {v : Bool} {c : ErrCode} (hp : e.phase = p) (hv : e.hvalid = v) (he : e.err = c) :
    e.status = 0#24 ++ c.code ++ 0#1 ++ BitVec.ofBool v ++ p.code := by
  rw [Engine.status, hp, hv, he]

/-- `hvalid` is 1 in DONE only (R39). -/
theorem Engine.Inv.hvalid_eq (h : e.Inv) : e.hvalid = (e.phase == .done) := by
  cases hp : e.phase with
  | idle =>
    simp only [Engine.Inv, hp] at h
    obtain ⟨-, -, -, -, -, -, -, hv⟩ := h
    exact hv
  | absorb => exact ((Engine.inv_absorb_iff hp).1 h).2.2
  | done =>
    simp only [Engine.Inv, hp] at h
    exact h.2

/-- The row of an engine in STATUS (R47), where the invariant ties `hvalid` to the phase. -/
theorem Engine.Inv.status_eq {p : Phase} {c : ErrCode} (h : e.Inv) (hp : e.phase = p) (he : e.err = c) :
    e.status = 0#24 ++ c.code ++ 0#1 ++ BitVec.ofBool (p == .done) ++ p.code :=
  Engine.status_eq hp (by rw [h.hvalid_eq, hp]) he

end Status

/-- Settles O45: R37's table gives the phase and the code of the engine a command leaves, and its invariant the rest of
the word. -/
theorem statusAfterEachCommand : Obligations.StatusAfterEachCommand := by
  intro s k c rest e hin hk hinv
  by_cases hfaulted : e.err ≠ .none
  · obtain ⟨t, hstep, ht⟩ := step_command_of_runOn hin hk (decoded_runOn_of_faulted hfaulted _)
    exact ⟨t, e, hstep, ht, by rw [if_pos hfaulted]⟩
  obtain ⟨t, e', hstep, ht, hrow⟩ := phaseTransitions s k c rest e hin hk (not_not.1 hfaulted) hinv
  have hinv' : e'.Inv := hinv.runOn (runOn_of_engines_of_step_command hin hstep hk ht)
  have status {p : Phase} {code : ErrCode} (h : e'.phase = p ∧ e'.err = code) := hinv'.status_eq h.1 h.2
  refine ⟨t, e', hstep, ht, ?_⟩
  rw [if_neg hfaulted]
  cases hd : decode c with
  | illegal why => cases hp : e.phase <;> simp only [hd, hp] at hrow ⊢ <;> exact status hrow
  | instr i =>
    cases i with
    | init seed =>
      simp only [hd] at hrow ⊢
      exact status hrow
    | append bs => cases hp : e.phase <;> simp only [hd, hp] at hrow ⊢ <;> exact status hrow
    | final => cases hp : e.phase <;> simp only [hd, hp] at hrow ⊢ <;> exact status hrow

section HashOut

variable {e e' : Engine} {c : Command}

/-- A command that changes `hash_out` is FINAL, or INIT, which leaves it without a value (R38). -/
theorem decode_of_hashOut_changed (hrun : Decoded.runOn (decode c) e = .next e') (hne : e'.hashOut ≠ e.hashOut) :
    decode c = .instr .final ∨ ((∃ seed, decode c = .instr (.init seed)) ∧ e'.hashOut = none) := by
  cases hd : decode c with
  | illegal why =>
    rw [hd] at hrun
    obtain ⟨-, rfl⟩ | ⟨-, rfl⟩ := illegal_cases e e' hrun <;> exact absurd rfl hne
  | instr i =>
    rw [hd] at hrun
    obtain ⟨-, rfl⟩ | ⟨-, code, -, rfl⟩ | ⟨-, seed, rfl, rfl⟩ | ⟨-, -, m, -, ⟨bs, -, -, rfl⟩ | ⟨rfl, rfl⟩⟩ :=
      runOn_cases i e e' hrun
    · exact absurd rfl hne
    · exact absurd rfl hne
    · exact .inr ⟨⟨seed, rfl⟩, rfl⟩
    · exact absurd rfl hne
    · exact .inl rfl

end HashOut

/-- Settles O46: the words of INIT and FINAL are `0x0001` and `0x0003` (R90); then the two commands' own effects. -/
theorem writersOfHashOut : Obligations.WritersOfHashOut := by
  refine ⟨?writers, ?effects, rfl⟩
  case writers =>
    intro s t k e e' hstep hk hk' hne
    obtain ⟨x, hx, rfl | ⟨rfl, rest, hin⟩ | ⟨c, rest, hin, hrun⟩⟩ := engine_of_step hstep hk'
    · cases hk.symm.trans hx
      exact absurd rfl hne
    · exact ⟨rest, .inr (.inr ⟨hin, rfl⟩)⟩
    · cases hk.symm.trans hx
      obtain hd | ⟨⟨seed, hd⟩, hnone⟩ := decode_of_hashOut_changed hrun hne
      · have hword : 0x0003#16 = c.cmd := encode_cmd_of_decode hd
        exact ⟨rest, .inl ⟨c.din, hword ▸ hin⟩⟩
      · have hword : 0x0001#16 = c.cmd := encode_cmd_of_decode hd
        exact ⟨rest, .inr (.inl ⟨c.din, hword ▸ hin, hnone⟩)⟩
  case effects =>
    intro s t e e' hk he hk'
    refine ⟨fun seed ht => ?_, fun hp ht => ?_⟩
    · cases (runOn_init he seed).symm.trans (runOn_of_exec hk hk' ht)
      rfl
    · obtain ⟨m, rfl⟩ := exists_effect_of_perform_absorb (f := fun x m => x.finish m) he rfl hp
        (runOn_of_exec hk hk' ht)
      exact ⟨finalizeLanes m, rfl, rfl, rfl, rfl, rfl⟩

/-- A word put together as STATUS is (R43) gives each field back at its place: 7 bits are free. -/
theorem status_fields : ∀ (c : BitVec 4) (v : Bool) (p : BitVec 2),
    (0#24 ++ c ++ 0#1 ++ BitVec.ofBool v ++ p).extractLsb' 0 2 = p ∧
    (0#24 ++ c ++ 0#1 ++ BitVec.ofBool v ++ p).getLsbD 2 = v ∧
    (0#24 ++ c ++ 0#1 ++ BitVec.ofBool v ++ p).getLsbD 3 = false ∧
    (0#24 ++ c ++ 0#1 ++ BitVec.ofBool v ++ p).extractLsb' 4 4 = c ∧
    (0#24 ++ c ++ 0#1 ++ BitVec.ofBool v ++ p).extractLsb' 8 24 = 0#24 := by
  decide

/-- Settles O47: the fields of the word, the codes they hold, and the read. -/
theorem statusLayout : Obligations.StatusLayout := by
  refine ⟨fun e => ?fields, by decide, fun s k rest e hk hin => step_readStatus_of hk hin⟩
  case fields =>
    obtain ⟨hphase, hvalid, hzero, herr, hzeros⟩ := status_fields e.err.code e.hvalid e.phase.code
    refine ⟨hphase.trans ?_, hvalid, hzero, herr.trans ?_, hzeros⟩
    · cases e.phase <;> rfl
    · cases e.err <;> rfl

section TwoReads

variable {s : State} {k : Nat} {rest : List Input} {e : Engine}

/-- Two steps in a row that each only give the host the reading `r`. -/
theorem run_two_of_observe {r : Reading} {x : Input}
    (hread : ∀ (u : State) (xs : List Input), u.engines = s.engines → u.inputs = x :: xs →
      step u = .next ((u.withInputs xs).observe r)) (hin : s.inputs = x :: x :: rest) :
    Host.Core.run core 2 s = .next { s with inputs := rest, observed := s.observed ++ [r, r] } := by
  have hfirst : step s = .next ((s.withInputs (x :: rest)).observe r) := hread s (x :: rest) rfl hin
  have hsecond := hread ((s.withInputs (x :: rest)).observe r) rest rfl rfl
  refine (run_succ_next 1 s _ hfirst).trans ((run_succ_next 0 _ _ hsecond).trans ?_)
  simp [State.observe, State.withInputs]

end TwoReads

/-- Settles O48: a read leaves the engines, so the second gives what the first gave. -/
theorem readsHaveNoSideEffect : Obligations.ReadsHaveNoSideEffect := by
  intro s k rest e hk
  have still (u : State) (hu : u.engines = s.engines) : u.engineAt k = some e := by
    rw [State.engineAt, hu]
    exact hk
  refine ⟨fun hin => ⟨.status k e.status, _, run_two_of_observe (fun u xs hu hx => ?_) hin, rfl⟩,
    fun hin => ⟨.hashOut k e.hashPort, _, run_two_of_observe (fun u xs hu hx => ?_) hin, rfl⟩⟩
  · exact step_readStatus_of (still u hu) hx
  · exact step_readHashOut_of (still u hu) hx

theorem State.engineAt_resetOf {n k : Nat} {e : Engine} (h : (State.resetOf n).engineAt k = some e) :
    e = Engine.reset := by
  obtain ⟨x, hx, rfl⟩ := Option.map_eq_some_iff.1 h
  obtain rfl := List.eq_of_mem_replicate (List.mem_of_getElem? hx)
  rfl

/-- Settles O50: reset writes the reset engine in every place, and `resetOf` starts with it there. -/
theorem resetState : Obligations.ResetState := by
  constructor
  · intro s rest hin
    refine ⟨_, step_reset hin, by simp, rfl, fun k e hk => ?_⟩
    rw [State.engineAt_resetAll] at hk
    obtain ⟨x, -, rfl⟩ := Option.map_eq_some_iff.1 hk
    rfl
  · intro n k e hk
    obtain rfl := State.engineAt_resetOf hk
    exact ⟨rfl, by decide⟩

/-- Settles O51: every engine of the platform is the reset engine. -/
theorem resetMeetsTheInvariant : Obligations.ResetMeetsTheInvariant := by
  intro n hn
  refine State.inv_iff.2 ⟨?_, fun k e hk => State.engineAt_resetOf hk ▸ Engine.inv_reset⟩
  simp only [State.resetOf, ne_eq, List.replicate_eq_nil_iff]
  omega

section Progress

variable {s : State}

/-- An interaction with an instance the platform has answers: reads always, and commands because the invariant gives
APPEND and FINAL the values they read. -/
theorem exists_step_of_addressed (hinv : s.Inv) (haddr : ∀ x ∈ s.inputs.head?, x.Addresses s) :
    ∃ t, step s = .next t := by
  obtain ⟨-, hengines⟩ := State.inv_iff.1 hinv
  cases hin : s.inputs with
  | nil => exact ⟨s, step_waiting hin⟩
  | cons x rest =>
    have hx : x.Addresses s := haddr x (by simp [hin])
    cases x with
    | command k c =>
      obtain ⟨e, hk⟩ := s.engineAt_isSome k hx
      obtain ⟨t, -, hstep, -⟩ := statusAfterEachCommand s k c rest e hin hk (hengines k e hk)
      exact ⟨t, hstep⟩
    | readStatus k =>
      obtain ⟨e, hk⟩ := s.engineAt_isSome k hx
      exact ⟨_, step_readStatus_of hk hin⟩
    | readHashOut k =>
      obtain ⟨e, hk⟩ := s.engineAt_isSome k hx
      exact ⟨_, step_readHashOut_of hk hin⟩
    | reset => exact ⟨_, step_reset hin⟩

theorem State.engineAt_eq_none {k : Nat} (h : ¬ k < s.engines.length) : s.engineAt k = none := by
  simp [State.engineAt, List.getElem?_eq_none (Nat.le_of_not_lt h)]

/-- An interaction with an instance the platform does not have stops for that alone. -/
theorem step_of_not_addressed {x : Input} {rest : List Input} (hin : s.inputs = x :: rest) (hx : ¬ x.Addresses s) :
    step s = .fault .noSuchEngine := by
  cases x with
  | command k c =>
    rw [step_command hin, performCommand_eq_onTarget, State.onTarget, State.aim_target, State.engineAt_aim,
      State.engineAt_withInputs, State.engineAt_eq_none hx]
  | readStatus k => rw [step_readStatus hin, readPort, State.engineAt_withInputs, State.engineAt_eq_none hx]
  | readHashOut k => rw [step_readHashOut hin, readPort, State.engineAt_withInputs, State.engineAt_eq_none hx]
  | reset => exact absurd trivial hx

end Progress

/-- Settles O53: the step answers, or stops because the instance is absent. -/
theorem everyAddressedStepAnswers : Obligations.EveryAddressedStepAnswers := by
  refine fun s hinv => ⟨fun hfault => ?_, exists_step_of_addressed hinv⟩
  by_cases haddr : ∀ x ∈ s.inputs.head?, x.Addresses s
  · obtain ⟨t, hstep⟩ := exists_step_of_addressed hinv haddr
    cases hstep.symm.trans hfault
  · obtain ⟨x, hx, hnot⟩ : ∃ x ∈ s.inputs.head?, ¬ x.Addresses s := by simpa using haddr
    obtain ⟨rest, hin⟩ := List.head?_eq_some_iff.1 hx
    cases (step_of_not_addressed hin hnot).symm.trans hfault

end Sys2Proof.Machine

/-!
PROOFS. HASH and APPENDBUF (spec/44_oneshot.md R160, R161) and R157. What a list of commands does to the one engine they
are addressed to is said once, by `Engine.Runs`, and carried over to `execAll` and to runs of the machine.
-/

namespace Sys2Proof.Machine

section Pieces

theorem flatten_pieces_and_length_le (msg : List Byte) :
    (pieces msg).flatten = msg ∧ ∀ p ∈ pieces msg, p.length ≤ 8 := by
  induction hn : msg.length using Nat.strong_induction_on generalizing msg with
  | _ n ih =>
    by_cases h : msg.length < 8
    · rw [pieces_lt msg h]
      split_ifs with hnil
      · simp [hnil]
      · simp [h.le]
    · have hge : 8 ≤ msg.length := by omega
      obtain ⟨hflat, hlen⟩ := ih _ (by rw [List.length_drop]; omega) (msg.drop 8) rfl
      rw [pieces_ge msg hge]
      refine ⟨by rw [List.flatten_cons, hflat, List.take_append_drop], ?_⟩
      intro p hp
      obtain rfl | hp := List.mem_cons.1 hp
      · exact List.length_take_le 8 msg
      · exact hlen p hp

/-- The pieces of a buffer make up the buffer (R161). -/
theorem flatten_pieces (msg : List Byte) : (pieces msg).flatten = msg := (flatten_pieces_and_length_le msg).1

theorem length_le_of_mem_pieces (msg : List Byte) : ∀ p ∈ pieces msg, p.length ≤ 8 :=
  (flatten_pieces_and_length_le msg).2

end Pieces

/-- The commands `is`, addressed to an engine `e` one after the other, answer each time and leave `e'`. -/
def Engine.Runs : List Instr → Engine → Engine → Prop
  | [], e, e' => e' = e
  | i :: is, e, e' => ∃ x, Instr.runOn i e = .next x ∧ Engine.Runs is x e'

section EngineRuns

variable {e e' : Engine}

theorem Engine.Runs.append {is js : List Instr} {x : Engine} (h : Engine.Runs is e x) (h' : Engine.Runs js x e') :
    Engine.Runs (is ++ js) e e' := by
  induction is generalizing e with
  | nil =>
    cases h
    exact h'
  | cons i is ih =>
    obtain ⟨y, hrun, hrest⟩ := h
    exact ⟨y, hrun, ih hrest⟩

/-- A faulted engine ignores them all (R175). -/
theorem Engine.runs_of_faulted (he : e.err ≠ .none) (is : List Instr) : Engine.Runs is e e := by
  induction is with
  | nil => rfl
  | cons i is ih => exact ⟨e, runOn_of_faulted he i, ih⟩

/-- APPENDs of at most 8 bytes in ABSORB are the fold of `Absorb` (R130). -/
theorem Engine.runs_appends {m : Message} {cut : List (List Byte)} (he : e.err = .none) (hp : e.phase = .absorb)
    (hm : e.message = some m) (hcut : ∀ p ∈ cut, p.length ≤ 8) :
    Engine.Runs (cut.map .append) e (e.setMessage (cut.foldl absorb m)) := by
  induction cut generalizing e m with
  | nil => exact e.setMessage_self m hm
  | cons p ps ih =>
    obtain ⟨hlen, hrest⟩ := List.forall_mem_cons.1 hcut
    exact ⟨_, runOn_append_absorb he (decide_eq_true hlen) hp hm,
      ih (e := e.setMessage (absorb m p)) he hp (e.message_setMessage _) hrest⟩

/-- With R136, the cut no longer shows. -/
theorem Engine.runs_cut {m : Message} {cut : List (List Byte)} (he : e.err = .none) (hp : e.phase = .absorb)
    (hm : e.message = some m) (haligned : m.Aligned) (hcut : ∀ p ∈ cut, p.length ≤ 8) :
    Engine.Runs (cut.map .append) e (e.setMessage (absorb m cut.flatten)) := by
  rw [← haligned.foldl_absorb]
  exact Engine.runs_appends he hp hm hcut

/-- The engine that INIT, the APPENDs of a message and FINAL leave, whatever the engine held. -/
def Engine.hashed (e : Engine) (seed : Din) (msg : List Byte) : Engine :=
  Engine.finish (absorb (initMessage seed) msg) ((e.start seed).setMessage (absorb (initMessage seed) msg))

theorem Engine.hashPort_hashed (e : Engine) (seed : Din) (msg : List Byte) :
    (e.hashed seed msg).hashPort = some (finalize (absorb (initMessage seed) msg)) := rfl

/-- INIT, a message in any pieces of at most 8 bytes, FINAL (R160). -/
theorem Engine.runs_hash {cut : List (List Byte)} (he : e.err = .none) (seed : Din) (hcut : ∀ p ∈ cut, p.length ≤ 8) :
    Engine.Runs (.init seed :: (cut.map .append ++ [.final])) e (e.hashed seed cut.flatten) := by
  have happends := Engine.runs_cut (e := e.start seed) (m := initMessage seed) he rfl rfl Nat.one_pos hcut
  refine ⟨_, runOn_init he seed, happends.append ⟨_, runOn_final_absorb ?_ ?_ ?_, rfl⟩⟩
  · exact he
  · rfl
  · exact Engine.message_setMessage _ _

end EngineRuns

section CarriedOver

variable {s : State} {e e' : Engine}

theorem execAll_of_runs {is : List Instr} (hk : s.engineAt s.target = some e) (h : Engine.Runs is e e') :
    execAll is s = .next (s.setEngine s.target e') := by
  induction is generalizing s e with
  | nil =>
    cases h
    rw [State.setEngine_self s _ _ hk]
    rfl
  | cons i is ih =>
    obtain ⟨x, hrun, hrest⟩ := h
    have hx : (s.setEngine s.target x).engineAt s.target = some x := State.engineAt_setEngine_self s _ e x hk
    rw [execAll_cons_next i is s _ (exec_of_runOn hk hrun), ih hx hrest, State.setEngine_target,
      State.setEngine_setEngine]

/-- Issued to instance `k`, well-formed commands take one step each, and the interactions after them remain (R72). -/
theorem run_of_runs {is : List Instr} {k : Nat} {rest : List Input} (hwf : ∀ i ∈ is, i.wellFormed = true)
    (hin : s.inputs = issue k is ++ rest) (hk : s.engineAt k = some e) (h : Engine.Runs is e e') :
    ∃ t, Host.Core.run core is.length s = .next t ∧ t.inputs = rest ∧ t.engineAt k = some e' := by
  induction is generalizing s e with
  | nil =>
    cases h
    exact ⟨s, rfl, hin, hk⟩
  | cons i is ih =>
    obtain ⟨x, hrun, hrest⟩ := h
    obtain ⟨hi, his⟩ := List.forall_mem_cons.1 hwf
    have hdecoded : Decoded.runOn (decode (encode i)) e = .next x := by rw [decodeOfEncode i hi]; exact hrun
    obtain ⟨u, hstep, hu⟩ := step_command_of_runOn hin hk hdecoded
    have hinputs : u.inputs = issue k is ++ rest := by rw [step_inputs s u hstep, hin]; rfl
    obtain ⟨t, hruns, ht⟩ := ih his hinputs hu hrest
    exact ⟨t, (run_succ_next is.length s u hstep).trans hruns, ht⟩

theorem wellFormed_of_mem_hashCommands (seed : Din) (msg : List Byte) :
    ∀ i ∈ hashCommands seed msg, i.wellFormed = true := by
  intro i hi
  simp only [hashCommands, appendBuf, List.mem_cons, List.mem_append, List.mem_map, List.not_mem_nil, or_false] at hi
  obtain rfl | ⟨p, hp, rfl⟩ | rfl := hi
  · rfl
  · exact decide_eq_true (length_le_of_mem_pieces msg p hp)
  · rfl

end CarriedOver

/-- The first APPEND of a nonempty buffer faults, and the faulted engine ignores the others. -/
theorem runs_appendBuf_of_fault {e : Engine} {msg : List Byte} {code : ErrCode} (hmsg : msg ≠ []) (hcode : code ≠ .none)
    (hfault : ∀ p : List Byte, p.length ≤ 8 → Instr.runOn (.append p) e = .next (e.takeFault code)) :
    Engine.Runs (appendBuf msg) e (e.takeFault code) := by
  have hlen := length_le_of_mem_pieces msg
  rw [appendBuf]
  cases hps : pieces msg with
  | nil => exact absurd (by rw [← flatten_pieces msg, hps]; rfl) hmsg
  | cons p ps =>
    rw [hps] at hlen
    exact ⟨_, hfault p (hlen p List.mem_cons_self), Engine.runs_of_faulted hcode _⟩

/-- Settles O36: the pieces of the buffer are one of its cuts. -/
theorem appendBufAbsorbsTheBuffer : Obligations.AppendBufAbsorbsTheBuffer := by
  intro s e hk he
  refine ⟨fun m hp hm haligned => ?absorb, fun msg hmsg => ⟨fun hp => ?idle, fun hp => ?done⟩, rfl⟩
  case absorb =>
    have cuts (cut : List (List Byte)) (hcut : ∀ p ∈ cut, p.length ≤ 8) :
        execAll (cut.map .append) s = .next (s.setEngine s.target (e.setMessage (absorb m cut.flatten))) :=
      execAll_of_runs hk (Engine.runs_cut he hp hm haligned hcut)
    refine ⟨fun msg => ?_, cuts⟩
    have hpieces := cuts (pieces msg) (length_le_of_mem_pieces msg)
    rwa [flatten_pieces] at hpieces
  case idle =>
    exact execAll_of_runs hk (runs_appendBuf_of_fault hmsg (by simp) fun p hlen =>
      runOn_idle he (by simp) (decide_eq_true hlen) hp)
  case done =>
    exact execAll_of_runs hk (runs_appendBuf_of_fault hmsg (by simp) fun p hlen =>
      runOn_done he (by simp) (decide_eq_true hlen) hp)

/-- Settles O37: one step for each command, on an engine with no code recorded and on a faulted one. -/
theorem hashGivesTheOneShotHash : Obligations.HashGivesTheOneShotHash := by
  intro seed msg s k e rest hin hk
  have hwf := wellFormed_of_mem_hashCommands seed msg
  by_cases he : e.err = .none
  · have hruns := Engine.runs_hash he seed (length_le_of_mem_pieces msg)
    rw [flatten_pieces] at hruns
    obtain ⟨t, hrun, hrest, ht⟩ := run_of_runs hwf hin hk hruns
    exact ⟨t, _, hrun, hrest, ht, fun _ => ⟨rfl, rfl, he, e.hashPort_hashed seed msg⟩, fun hne => absurd he hne⟩
  · obtain ⟨t, hrun, hrest, ht⟩ := run_of_runs hwf hin hk (Engine.runs_of_faulted he _)
    exact ⟨t, e, hrun, hrest, ht, fun h => absurd h he, fun _ => rfl⟩

/-- Settles O38: both engines present the hash of the joined message. -/
theorem hashDependsOnSeedAndMessageOnly : Obligations.HashDependsOnSeedAndMessageOnly := by
  intro seed cut cut' s s' e e' hcut hcut' hmsg hk he hk' he'
  refine ⟨_, _, _, _, execAll_of_runs hk (Engine.runs_hash he seed hcut),
    execAll_of_runs hk' (Engine.runs_hash he' seed hcut'), State.engineAt_setEngine_self _ _ _ _ hk,
    State.engineAt_setEngine_self _ _ _ _ hk', ?_, ?_⟩
  · simp [Engine.hashPort_hashed]
  · rw [Engine.hashPort_hashed, Engine.hashPort_hashed, hmsg]

end Sys2Proof.Machine
